-- ==== Sys2Proof/Word.lean ====
section
/-! DEFINITION. The widths the spec uses: the 32-bit register and instruction word (R2, R68), the 16-bit halfword of
a T32 instruction (R69), the 4-bit number of a general register (R70) and the 5-bit count EOIcount (R21). Bit 0 is
the least significant bit (R15). -/

namespace Sys2Proof

/-- A 32-bit value: the register, a general register, an instruction word (R2, R40, R68). -/
abbrev Word := BitVec 32

/-- One halfword of a T32 instruction (R69). -/
abbrev Halfword := BitVec 16

/-- The 4-bit `Rt` field (R70); which values are admitted is `rtAdmittedA32` and `rtAdmittedT32`. -/
abbrev RegNum := BitVec 4

/-- The 5-bit unsigned count EOIcount (R21). -/
abbrev Count := BitVec 5

end Sys2Proof
end

