-- ==== Sys2Proof/Syntax.lean ====
section
/-! DEFINITION. The instructions: one constructor for each of the four rows of spec/opcode_table.json, the operands of
an MRC or MCR before it is known which register they select, and the forms in which an instruction is given to the
machine. -/

namespace Sys2Proof

/-- The two instructions that access ICH_HCR, each in both instruction sets. `t` is the number of the general register
`<Rt>` (R70). -/
inductive Instr where
  /-- Row 1, `MRC p15, 4, <Rt>, c12, c11, 0` in A32 (R80, R68). -/
  | mrcA32 (t : RegNum)
  /-- Row 2, `MCR p15, 4, <Rt>, c12, c11, 0` in A32 (R81, R68). -/
  | mcrA32 (t : RegNum)
  /-- Row 3, the MRC in T32 (R80, R69). -/
  | mrcT32 (t : RegNum)
  /-- Row 4, the MCR in T32 (R81, R69). -/
  | mcrT32 (t : RegNum)
  deriving DecidableEq, Repr

/-- The operands of an MRC (`isRead`) or MCR, as the syntax of R65 and R66 lists them, with the widths of R50. -/
structure AccessOperands where
  isRead : Bool
  coproc : BitVec 4
  opc1 : BitVec 3
  t : RegNum
  crn : BitVec 4
  crm : BitVec 4
  opc2 : BitVec 3
  deriving DecidableEq, Repr

/-- An instruction as it is given to the machine, already fetched (R59): an A32 word, a T32 pair of halfwords with
whether it stands inside an IT block (R69), or a decoded term. -/
inductive Fetched where
  | a32 (w : Word)
  | t32 (first second : Halfword) (inITBlock : Bool)
  | decoded (i : Instr)
  deriving DecidableEq, Repr

end Sys2Proof
end

