-- ==== Sys2Proof/WellFormed.lean ====
section
/-! DEFINITION. Which terms of Instr are admitted: the register numbers of R40 and R72. -/

namespace Sys2Proof

/-- R40: A32 admits `t` from 0 to 14. -/
def rtAdmittedA32 (t : RegNum) : Bool := t != 15

/-- R40: T32 admits `t` from 0 to 12 and 14. -/
def rtAdmittedT32 (t : RegNum) : Bool := t != 15 && t != 13

/-- The instruction's register number is one its instruction set admits (R40, R72). -/
def Instr.wellFormed : Instr → Bool
  | .mrcA32 t => rtAdmittedA32 t
  | .mcrA32 t => rtAdmittedA32 t
  | .mrcT32 t => rtAdmittedT32 t
  | .mcrT32 t => rtAdmittedT32 t

end Sys2Proof
end

