-- ==== Sys2Proof/Decode.lean ====
section
/-! DEFINITION. Decoding and encoding of the two access instructions (30_encoding.md). The decoder is total on any
A32 word and any pair of T32 halfwords and rejects by name; the encoder is written from the same layouts. The
positions of the fields are the spec's general knowledge (R68, R69; log 13); the operand values are the source's
(R67). -/

namespace Sys2Proof

/-- Why a word, a pair of halfwords or a term is no admitted instruction of this hardware (R72, R74). -/
inductive DecodeError where
  /-- Not an MRC or MCR at all: outside the spec (R74). -/
  | notMrcOrMcr
  /-- An MRC or MCR whose operands do not select ICH_HCR (R67, R72). -/
  | otherRegister
  /-- A condition other than always (R45, R72). -/
  | conditional
  /-- Inside an IT block (R69, R45). -/
  | insideITBlock
  /-- A register number the instruction set does not admit: 15, and in T32 also 13 (R40, R72). -/
  | registerNotAdmitted
  deriving DecidableEq, Repr

/-- R67: the operand values that select ICH_HCR. `<Rt>` and the direction take no part. -/
def AccessOperands.selectsIchHcr (f : AccessOperands) : Bool :=
  f.coproc == 0b1111 && f.opc1 == 0b100 && f.crn == 0b1100 && f.crm == 0b1011 && f.opc2 == 0b000

/-- The operands of the read (`isRead`) or write of ICH_HCR with register `t` (R67). -/
def AccessOperands.ofIchHcr (isRead : Bool) (t : RegNum) : AccessOperands where
  isRead := isRead
  coproc := 0b1111
  opc1 := 0b100
  t := t
  crn := 0b1100
  crm := 0b1011
  opc2 := 0b000

/-- The condition field of an A32 word (R68). -/
def a32Cond (w : Word) : BitVec 4 := w.extractLsb' 28 4

/-- The operands of an A32 word that is an MRC or MCR (R68, R70). -/
def a32Operands (w : Word) : Option AccessOperands :=
  if w.extractLsb' 24 4 = 0b1110 ∧ w.getLsbD 4 = true then
    some {
      isRead := w.getLsbD 20
      coproc := w.extractLsb' 8 4
      opc1 := w.extractLsb' 21 3
      t := w.extractLsb' 12 4
      crn := w.extractLsb' 16 4
      crm := w.extractLsb' 0 4
      opc2 := w.extractLsb' 5 3 }
  else none

/-- The operands of a pair of T32 halfwords that is an MRC or MCR (R69, R70). -/
def t32Operands (first second : Halfword) : Option AccessOperands :=
  if first.extractLsb' 8 8 = 0b11101110 ∧ second.getLsbD 4 = true then
    some {
      isRead := first.getLsbD 4
      coproc := second.extractLsb' 8 4
      opc1 := first.extractLsb' 5 3
      t := second.extractLsb' 12 4
      crn := first.extractLsb' 0 4
      crm := second.extractLsb' 0 4
      opc2 := second.extractLsb' 5 3 }
  else none

/-- Decode an A32 word: the read, the write, or neither (R74), with the refusals of R72. -/
def decodeA32 (w : Word) : Except DecodeError Instr :=
  match a32Operands w with
  | none => .error .notMrcOrMcr
  | some f =>
    if f.selectsIchHcr = false then .error .otherRegister
    else if a32Cond w ≠ 0b1110 then .error .conditional
    else if rtAdmittedA32 f.t = false then .error .registerNotAdmitted
    else if f.isRead then .ok (.mrcA32 f.t)
    else .ok (.mcrA32 f.t)

/-- Decode a pair of T32 halfwords, the first at the lower address (R69), with the refusals of R72. -/
def decodeT32 (first second : Halfword) (inITBlock : Bool) : Except DecodeError Instr :=
  match t32Operands first second with
  | none => .error .notMrcOrMcr
  | some f =>
    if f.selectsIchHcr = false then .error .otherRegister
    else if inITBlock then .error .insideITBlock
    else if rtAdmittedT32 f.t = false then .error .registerNotAdmitted
    else if f.isRead then .ok (.mrcT32 f.t)
    else .ok (.mcrT32 f.t)

/-- Decode an instruction in whichever form it was given (R59). -/
def decode : Fetched → Except DecodeError Instr
  | .a32 w => decodeA32 w
  | .t32 first second inITBlock => decodeT32 first second inITBlock
  | .decoded i => if i.wellFormed then .ok i else .error .registerNotAdmitted

/-- The A32 word of an access with the given condition (R68). -/
def encodeA32 (cond : BitVec 4) (f : AccessOperands) : Word :=
  cond ++ (0b1110 : BitVec 4) ++ f.opc1 ++ BitVec.ofBool f.isRead ++ f.crn ++ f.t ++ f.coproc ++ f.opc2
    ++ (0b1 : BitVec 1) ++ f.crm

/-- The first halfword of the T32 form of an access (R69). -/
def encodeT32First (f : AccessOperands) : Halfword :=
  (0b11101110 : BitVec 8) ++ f.opc1 ++ BitVec.ofBool f.isRead ++ f.crn

/-- The second halfword of the T32 form of an access (R69). -/
def encodeT32Second (f : AccessOperands) : Halfword :=
  f.t ++ f.coproc ++ f.opc2 ++ (0b1 : BitVec 1) ++ f.crm

/-- The words of an instruction: one A32 word with the condition always (R68), or two T32 halfwords outside any IT
block (R69). -/
def encode : Instr → Fetched
  | .mrcA32 t => .a32 (encodeA32 0b1110 (.ofIchHcr true t))
  | .mcrA32 t => .a32 (encodeA32 0b1110 (.ofIchHcr false t))
  | .mrcT32 t => .t32 (encodeT32First (.ofIchHcr true t)) (encodeT32Second (.ofIchHcr true t)) false
  | .mcrT32 t => .t32 (encodeT32First (.ofIchHcr false t)) (encodeT32Second (.ofIchHcr false t)) false

/-- The length in bytes, the same in both instruction sets (R74). -/
def Instr.lengthBytes (_ : Instr) : Nat := 4

/-- The number of the general register the instruction names. -/
def Instr.rt : Instr → RegNum
  | .mrcA32 t => t
  | .mcrA32 t => t
  | .mrcT32 t => t
  | .mcrT32 t => t

/-- The instruction as one number, the way spec/opcode_table.json writes both forms (R68; R69 "written as one number,
first halfword high"). -/
def Instr.tableWord : Instr → Word
  | .mrcA32 t => encodeA32 0b1110 (.ofIchHcr true t)
  | .mcrA32 t => encodeA32 0b1110 (.ofIchHcr false t)
  | .mrcT32 t => encodeT32First (.ofIchHcr true t) ++ encodeT32Second (.ofIchHcr true t)
  | .mcrT32 t => encodeT32First (.ofIchHcr false t) ++ encodeT32Second (.ofIchHcr false t)

/-- The assembler spelling that names ICH_HCR (R71). -/
def Instr.spelling : Instr → String
  | .mrcA32 t => "MRC p15, 4, r" ++ Nat.repr t.toNat ++ ", c12, c11, 0"
  | .mcrA32 t => "MCR p15, 4, r" ++ Nat.repr t.toNat ++ ", c12, c11, 0"
  | .mrcT32 t => "MRC p15, 4, r" ++ Nat.repr t.toNat ++ ", c12, c11, 0"
  | .mcrT32 t => "MCR p15, 4, r" ++ Nat.repr t.toNat ++ ", c12, c11, 0"

/-- What the decoder reads from an instruction whose bits are `w` as spec/opcode_table.json numbers them. The T32 rows
carry the same numbers as the A32 rows, and every T32 word that decodes also decodes as A32, so the number is read as
an A32 word (log 25). -/
def decodeTableWord (nbits w : Nat) : Option Instr :=
  match decodeA32 (BitVec.ofNat 32 (w % 2 ^ nbits)) with
  | .ok i => some i
  | .error _ => none

end Sys2Proof
end

