-- ==== Sys2Proof/Config.lean ====
section
/-! DEFINITION. The parameters one implementation fixes (00_scope.md R6 to R14) and the free values: choices the spec
leaves to no rule (`draw`, `either`, R15). A free value is an opaque function of the step counter `State.draws`, so
nothing can be proved of what it is. The parameters are a field of State, `State.cfg`, so that a statement about every
state is a statement about every implementation (log 5). -/

namespace Sys2Proof

/-- The parameters of one implementation (R6 to R14). No step changes them. -/
structure Config where
  /-- R6: AArch32 is supported at some Exception level. -/
  haveAArch32 : Bool
  /-- R7: EL2 is implemented. -/
  haveEL2 : Bool
  /-- R8: the TDIR trap bit (bit 14) exists. -/
  tdirSupported : Bool
  /-- R9: ICH_VTR.SEIS; true is 1. -/
  seis : Bool
  /-- R10: FEAT_GICv4p1 is implemented, so bit 8 is vSGIEOICount. -/
  featGICv4p1 : Bool
  /-- R11: TDIR also traps Non-secure EL1 writes of ICC_DIR (IMPLEMENTATION DEFINED). -/
  tdirTrapsIccDir : Bool
  /-- R12: the number of implemented List registers, at least 1. -/
  numLrs : Nat
  /-- R13: the RES0 bits that are storage without effect; a subset of RES0_MASK. -/
  res0Readback : Word
  /-- R14: the spurious interrupt identifier. -/
  spuriousId : Nat
  deriving DecidableEq, Repr

/-- R58 (log 7): of a hardware read made by an event, bit n says whether field bit n comes from the current value of
the register or from the last synchronised one. -/
opaque Config.freeEventView : Nat → Word

/-- R58 (log 7): the same choice for the evaluation of MaintIRQ, a hardware read of its own. -/
opaque Config.freeMaintView : Nat → Word

/-- R58 (log 7): the same choice for the gate of the virtual interrupts of group 0. -/
opaque Config.freeVirtual0View : Nat → Word

/-- R58 (log 7): the same choice for the gate of the virtual interrupts of group 1. -/
opaque Config.freeVirtual1View : Nat → Word

/-- R92 (log 9): whether a virtual EOIR write that clears no Active Priorities bit counts, one choice per write. -/
opaque Config.freeEoirCounts : Nat → Bool

/-- R94 (log 8): `draw(5)`, the count after an increment of a count that holds 31. -/
opaque Config.freeCount : Nat → Count

/-- R115 (log 11): whether the field trap is taken when another mechanism traps the same access. -/
opaque Config.freeFieldTrapWins : Nat → Bool

/-- R115 (log 11): which of the applicable trap fields a trap names as its cause. -/
opaque Config.freeCause : Nat → Nat

/-- R140, R141 (log 10): `draw(32)` at a reset, of which the read-back RES0 bits are kept. -/
opaque Config.freeResetBits : Nat → Word

/-- R14, N10 (log 5): the spurious identifier of `Config.reference`, a number the source does not give. -/
opaque Config.openSpuriousId : Nat

/-- R11 (log 5): the IMPLEMENTATION DEFINED choice of `Config.reference`. -/
opaque Config.openTdirTrapsIccDir : Bool

/-- The implementation `State.reset` is of: the parameters 95_test_vectors.md assumes unless a vector says otherwise
(DESIGN CHOICE, log 5). The two it does not list are opaque. -/
def Config.reference : Config where
  haveAArch32 := true
  haveEL2 := true
  tdirSupported := true
  seis := true
  featGICv4p1 := true
  tdirTrapsIccDir := Config.openTdirTrapsIccDir
  numLrs := 4
  res0Readback := 0
  spuriousId := Config.openSpuriousId

end Sys2Proof
end

