-- ==== Sys2Proof/Machine/Fields.lean ====
section
/-! DEFINITION. The 32-bit register ICH_HCR as a value: its fields (10_state.md R20 to R37), RES0_MASK and the effective
value (R38), what a write stores and a read returns (R39, R82, R83), the increment of EOIcount (R94), what a reset
leaves (R140) and the value a hardware read sees under the lagging view (R58). Everything here is a function of the
value and of the implementation's parameters. -/

namespace Sys2Proof.Machine

/-- EOIcount, bits [31:27] (R21). -/
def Hcr.eoiCount (v : Word) : Count := v.extractLsb' 27 5
/-- TDIR, bit [14] (R23). -/
def Hcr.tdir (v : Word) : Bool := v.getLsbD 14
/-- TSEI, bit [13] (R24). -/
def Hcr.tsei (v : Word) : Bool := v.getLsbD 13
/-- TALL1, bit [12] (R25). -/
def Hcr.tall1 (v : Word) : Bool := v.getLsbD 12
/-- TALL0, bit [11] (R26). -/
def Hcr.tall0 (v : Word) : Bool := v.getLsbD 11
/-- TC, bit [10] (R27). -/
def Hcr.tc (v : Word) : Bool := v.getLsbD 10
/-- vSGIEOICount, bit [8] (R29). -/
def Hcr.vSGIEOICount (v : Word) : Bool := v.getLsbD 8
/-- VGrp1DIE, bit [7] (R30). -/
def Hcr.vGrp1DIE (v : Word) : Bool := v.getLsbD 7
/-- VGrp1EIE, bit [6] (R31). -/
def Hcr.vGrp1EIE (v : Word) : Bool := v.getLsbD 6
/-- VGrp0DIE, bit [5] (R32). -/
def Hcr.vGrp0DIE (v : Word) : Bool := v.getLsbD 5
/-- VGrp0EIE, bit [4] (R33). -/
def Hcr.vGrp0EIE (v : Word) : Bool := v.getLsbD 4
/-- NPIE, bit [3] (R34). -/
def Hcr.npie (v : Word) : Bool := v.getLsbD 3
/-- LRENPIE, bit [2] (R35). -/
def Hcr.lrenpie (v : Word) : Bool := v.getLsbD 2
/-- UIE, bit [1] (R36). -/
def Hcr.uie (v : Word) : Bool := v.getLsbD 1
/-- En, bit [0] (R37). -/
def Hcr.en (v : Word) : Bool := v.getLsbD 0

/-- RES0_MASK (R38): a 1 in every bit that is RES0 in the implementation. -/
def Hcr.res0Mask (c : Config) : Word :=
  if c.haveEL2 then
    0x07FF8200#32
      ||| (if c.tdirSupported then 0 else 0x00004000#32)
      ||| (if c.seis then 0 else 0x00002000#32)
      ||| (if c.featGICv4p1 then 0 else 0x00000100#32)
  else 0xFFFFFFFF#32

/-- `Eff` (R38): the value with every RES0 bit taken as 0. -/
def Hcr.eff (c : Config) (v : Word) : Word := v &&& ~~~(Hcr.res0Mask c)

/-- `WriteValue(v)` (R82, R39): what a write of `v` stores. -/
def Hcr.writeValue (c : Config) (v : Word) : Word := v &&& (~~~(Hcr.res0Mask c) ||| c.res0Readback)

/-- `ReadValue()` (R83): a read returns the stored value. -/
def Hcr.readValue (v : Word) : Word := v

/-- The stored value has 0 in every RES0 bit that is not a read-back bit (R39, the invariant of R83). -/
def Hcr.reservedClear (c : Config) (v : Word) : Bool := v &&& Hcr.res0Mask c &&& ~~~c.res0Readback == 0

/-- `EOIcount <- c`, other bits unchanged (R15, R21). -/
def Hcr.setEoiCount (v : Word) (c : Count) : Word := c ++ v.extractLsb' 0 27

/-- `IncrementEOIcount()` (R94). `free` is the unspecified result when the field holds 31 (log 8). -/
def Hcr.increment (free : Count) (v : Word) : Word :=
  if (Hcr.eoiCount v).toNat < 31 then Hcr.setEoiCount v (Hcr.eoiCount v + 1) else Hcr.setEoiCount v free

/-- What a reset stores (R140): every functional bit 0, a read-back RES0 bit as drawn (R141). -/
def Hcr.resetValue (c : Config) (free : Word) : Word := free &&& Hcr.res0Mask c &&& c.res0Readback

/-- The bits of EOIcount. -/
def Hcr.countMask : Word := 0xF8000000#32

/-- What one hardware read sees under the lagging view (R58): field by field the current value or the last synchronised
one, as `choice` says, and EOIcount always current. Where the two agree there is nothing to choose. -/
def Hcr.hardwareView (current synced choice : Word) : Word :=
  if current = synced then current
  else (current &&& (choice ||| Hcr.countMask)) ||| (synced &&& ~~~(choice ||| Hcr.countMask))

/-- The parameters are ones an implementation may have: at least one List register (R12), read-back bits among the RES0
bits (R13, R39). -/
def Hcr.configAdmitted (c : Config) : Bool := 1 ≤ c.numLrs && c.res0Readback &&& ~~~(Hcr.res0Mask c) == 0

end Sys2Proof.Machine
end

