-- ==== Sys2Proof/Machine/Inputs.lean ====
section
/-! DEFINITION. What the environment supplies: the inputs of 10_state.md R42 and the events of the one sequence of
20_memory.md R57. Plain data. -/

namespace Sys2Proof.Machine

/-- The four values of PSTATE.EL (R42). -/
inductive EL where
  | el0 | el1 | el2 | el3
  deriving DecidableEq, Repr

/-- One List register as the rules see it (R43): its State field and whether it is marked valid, unrelated. -/
structure ListReg where
  state : BitVec 2
  valid : Bool
  deriving DecidableEq, Repr

/-- The inputs that stand between events (R42). The ones that belong to one event travel with the event. A Bit of the
table is a Bool, true for 1. -/
structure Inputs where
  /-- PSTATE.EL. -/
  el : EL
  /-- EL2Enabled(). -/
  el2Enabled : Bool
  /-- ELUsingAArch32(EL2). -/
  el2UsesAArch32 : Bool
  /-- HSTR_EL2.T12. -/
  hstrEl2T12 : Bool
  /-- HSTR.T12. -/
  hstrT12 : Bool
  /-- ICC_HSRE.SRE. -/
  hsreSre : Bool
  /-- ICC_MSRE.SRE. -/
  msreSre : Bool
  /-- IsNonSecure (R129). -/
  isNonSecure : Bool
  /-- ICH_VMCR.VENG0. -/
  veng0 : Bool
  /-- ICH_VMCR.VENG1. -/
  veng1 : Bool
  /-- LR[i], i from 0 to NUM_LRS - 1. -/
  lrs : List ListReg
  /-- EOImode; true for 1. -/
  eoiMode : Bool
  /-- OtherMaintSources (R116). -/
  otherMaintSources : Bool
  /-- The rest of the virtual CPU interface asks to signal a virtual interrupt of group 0 (R99, U18; log 15);
  unrelated to `veng0` (R125; log 32). -/
  virtualRequest0 : Bool
  /-- The same for group 1, unrelated to `veng1`. -/
  virtualRequest1 : Bool
  deriving DecidableEq, Repr

/-- The System registers whose accesses the trap fields look at (R115): the eleven common ones of R27, the two IAR
registers of R98, and the others of the ICC_* and ICV_* families, which the source does not list (N15). -/
inductive ICReg where
  | iccSGI0R | iccSGI1R | iccASGI1R | iccCTLR | iccDIR | iccPMR | iccRPR
  | icvCTLR | icvDIR | icvPMR | icvRPR
  | icvIAR0 | icvIAR1
  | otherICC (n : Nat)
  | otherICV (n : Nat)
  deriving DecidableEq, Repr

/-- The four registers whose reads R98 names. -/
inductive IARReg where
  | icvIAR0 | icvIAR1 | gicvIAR | gicvAIAR
  deriving DecidableEq, Repr

/-- A successful virtual write to an EOIR register, with its inputs (R90). -/
structure EoirWrite where
  id : Nat
  idValid : Bool
  lrFound : Bool
  clearsAPBit : Bool
  isVirtualSGI : Bool
  deriving DecidableEq, Repr

/-- A successful virtual write to a DIR register, with its inputs (R91). -/
structure DirWrite where
  id : Nat
  idValid : Bool
  lrFound : Bool
  isVirtualSGI : Bool
  deriving DecidableEq, Repr

/-- An access to an ICC_* or ICV_* register, with its inputs (R115). `otherTrap` is the outcome another mechanism would
give it, by a number (log 21). -/
structure RegAccess where
  reg : ICReg
  isWrite : Bool
  isGroup0Reg : Bool
  isGroup1Reg : Bool
  otherTrap : Option Nat
  deriving DecidableEq, Repr

/-- The events (R57, R42, R86, R90, R91, R98, R114, R115, R140). -/
inductive Event where
  /-- An instruction given to the processing element (R59). -/
  | instr (f : Fetched)
  /-- A write of ICH_HCR_EL2[31:0] (R86). -/
  | a64Write (v : Word)
  /-- A read of ICH_HCR_EL2[31:0] (R86). -/
  | a64Read
  /-- VirtualEOIRWrite (R90). -/
  | virtualEOIRWrite (w : EoirWrite)
  /-- VirtualDIRWrite (R91). -/
  | virtualDIRWrite (w : DirWrite)
  /-- IARRead, not trapped (R98); `value` is the result where the spec leaves it to the input. -/
  | iarRead (r : IARReg) (value : Nat)
  /-- EL1SysRegAccess (R115). -/
  | el1SysRegAccess (a : RegAccess)
  /-- LocalSEI (R114). -/
  | localSEI
  /-- ContextSync (R58). -/
  | contextSync
  /-- Reset (R140). -/
  | reset
  /-- The environment changes the inputs (R42, R47). -/
  | setInputs (i : Inputs)
  /-- The environment places a value in a general register (R40; 95 P2 step 7; log 19). -/
  | setReg (t : Fin 15) (v : Word)
  deriving DecidableEq, Repr

/-- What an event that reads answers: `A64Read` (R86) or `IARRead` (R98). -/
inductive Returned where
  | a64Read (v : Word)
  | iarRead (id : Nat)
  deriving DecidableEq, Repr

end Sys2Proof.Machine
end

