-- ==== Sys2Proof/Machine/State.lean ====
section
/-! DEFINITION. The state, the reasons a step stops, and the state after reset. -/

namespace Sys2Proof.Machine

/-- The field that a trap to EL2 names as its cause (R105). -/
inductive TrapCause where
  | tc | tall0 | tall1 | tdir | tsei
  deriving DecidableEq, Repr

/-- The raised outcomes of R105: the step ends, no state of this hardware changes, and what follows belongs to the
embedding processor (R126, R127; log 3). Each is safe: the machine stops where the processor goes on. -/
inductive Fault where
  /-- `Undefined()` (R106), raised by `accessCheck` for an MRC or MCR. Safe. -/
  | undefined
  /-- `A64SystemAccessTrap(EL2, 0x03)` (R107), raised by `accessCheck`, with its two arguments. Safe. -/
  | a64SystemAccessTrap (target : EL) (number : BitVec 8)
  /-- `HypTrap(0x03)` (R108), raised by `accessCheck`, with its argument. Safe. -/
  | hypTrap (number : BitVec 8)
  /-- `TrapToEL2(cause)` (R110 to R114), raised by `el1SysRegAccess` and `localSEI`. Safe. -/
  | trapToEL2 (cause : TrapCause)
  /-- The outcome of another trap mechanism (R115), raised by `el1SysRegAccess`, as the number the event carries
  (log 21). Safe. -/
  | otherTrap (label : Nat)
  deriving DecidableEq, Repr

/-- What the spec refuses, or says cannot occur. -/
inductive Refusal where
  /-- An arm of exec whose instruction has no meaning yet. Safe. No arm answers it. -/
  | notModelled (mnemonic : String)
  /-- Words or a term the decoder rejects (R72), raised by `runEvent`. Safe. -/
  | encoding (e : DecodeError)
  /-- An instruction whose register number is not admitted (R40), raised by its meaning. Safe. -/
  | registerNotAdmitted
  /-- An event of the virtual CPU interface where EL2 is not implemented (R101), raised by `runEvent`. Safe (log 16). -/
  | eventNeedsEL2
  /-- Inputs outside the constraints of R42, raised by `runEvent`. Safe (log 17). -/
  | inputsNotAdmitted
  deriving DecidableEq, Repr

/-- The whole machine. -/
structure State where
  /-- The implementation's parameters (R6 to R14); constant. -/
  cfg : Config
  /-- The general registers x[0] to x[14] (R40). -/
  x : Vector Word 15
  /-- ICH_HCR (R20), the same storage as ICH_HCR_EL2[31:0] (R3). -/
  hcr : Word
  /-- ICH_HCR_sync (R58, R44). -/
  sync : Word
  /-- The standing inputs (R42). -/
  inputs : Inputs
  /-- The events still to happen, the next one first (R57; log 1). -/
  events : List Event
  /-- What the last reading event answered (R86, R98; log 18). -/
  returned : Option Returned
  /-- The output MaintIRQ (R116), as re-evaluated after the last event (log 15). -/
  maintIRQ : Bool
  /-- The output VirtualIRQSignaled for group 0 (R97; log 15). -/
  virtualIRQ0 : Bool
  /-- The same for group 1. -/
  virtualIRQ1 : Bool
  /-- The counter the free values of Config are applied to; the model's own field (log 22). -/
  draws : Nat
  deriving DecidableEq, Repr

/-- The inputs of `State.reset`: the start of program P1 of 95_test_vectors.md, everything it does not name 0
(DESIGN CHOICE, log 6; the spec gives inputs no reset value, R140, R142). -/
def Inputs.start : Inputs where
  el := .el2
  el2Enabled := false
  el2UsesAArch32 := false
  hstrEl2T12 := false
  hstrT12 := false
  hsreSre := true
  msreSre := false
  isNonSecure := false
  veng0 := false
  veng1 := false
  lrs := List.replicate 4 { state := 0, valid := false }
  eoiMode := false
  otherMaintSources := false
  virtualRequest0 := false
  virtualRequest1 := false

/-- The state right after the first Reset of a run (R140) of the implementation `c`, with the inputs `i` and the draw
`free` of the reset. The general registers are 0 (DESIGN CHOICE, log 4). -/
def State.resetOf (c : Config) (i : Inputs) (free : Word) : State where
  cfg := c
  x := Vector.replicate 15 0
  hcr := Hcr.resetValue c free
  sync := Hcr.resetValue c free
  inputs := i
  events := []
  returned := none
  maintIRQ := false
  virtualIRQ0 := false
  virtualIRQ1 := false
  draws := 0

/-- The machine right after reset: the reference implementation (log 5), whose register resets to 0 whatever is drawn
(R141), with the inputs of log 6. -/
def State.reset : State := State.resetOf Config.reference Inputs.start 0

end Sys2Proof.Machine
end

