-- ==== Sys2Proof/Machine/Flags.lean ====
section
/-! DEFINITION. There are no status flags (R45). The one-bit conditions the rules compute instead: the gate for virtual
SGIs (R93), the seven maintenance conditions and their level (R116 to R123), the gate of En (R97), and which trap
fields apply to an access (R110 to R115). Each is given the effective value `e` of R38 that its hardware read saw. -/

namespace Sys2Proof.Machine

/-- `SGIGate` (R93). -/
def sgiGate (c : Config) (e : Word) (isVirtualSGI : Bool) : Bool :=
  c.featGICv4p1 && Hcr.vSGIEOICount e && isVirtualSGI

/-- `NumValid` (R117). -/
def Inputs.numValid (i : Inputs) : Nat := i.lrs.countP (fun l => l.valid)

/-- `NumPending` (R119): only the State 0b01 counts. -/
def Inputs.numPending (i : Inputs) : Nat := i.lrs.countP (fun l => l.state == 0b01)

/-- `C_UIE` (R117). -/
def condUIE (e : Word) (i : Inputs) : Bool := Hcr.uie e && i.numValid ≤ 1
/-- `C_LRENPIE` (R118); `count` is the stored EOIcount. -/
def condLRENPIE (e : Word) (count : Count) : Bool := Hcr.lrenpie e && count != 0
/-- `C_NPIE` (R119). -/
def condNPIE (e : Word) (i : Inputs) : Bool := Hcr.npie e && i.numPending == 0
/-- `C_VGrp0EIE` (R120). -/
def condVGrp0EIE (e : Word) (i : Inputs) : Bool := Hcr.vGrp0EIE e && i.veng0
/-- `C_VGrp0DIE` (R121). -/
def condVGrp0DIE (e : Word) (i : Inputs) : Bool := Hcr.vGrp0DIE e && !i.veng0
/-- `C_VGrp1EIE` (R122). -/
def condVGrp1EIE (e : Word) (i : Inputs) : Bool := Hcr.vGrp1EIE e && i.veng1
/-- `C_VGrp1DIE` (R123). -/
def condVGrp1DIE (e : Word) (i : Inputs) : Bool := Hcr.vGrp1DIE e && !i.veng1

/-- `MaintIRQ` (R116), a level. -/
def maintLevel (e : Word) (count : Count) (i : Inputs) : Bool :=
  Hcr.en e &&
    (condUIE e i || condLRENPIE e count || condNPIE e i || condVGrp0EIE e i || condVGrp0DIE e i
      || condVGrp1EIE e i || condVGrp1DIE e i || i.otherMaintSources)

/-- `VirtualIRQSignaled` (R97, R99): gated by En, otherwise as the rest of the interface asks. DESIGN CHOICE (log 32): R125
says that the group's VENG bit enables the signalling, and no rule says what it then does to this output, so the request
is unrelated to VENG. -/
def virtualLevel (e : Word) (request : Bool) : Bool := Hcr.en e && request

/-- The eleven common registers (R27, R110). -/
def ICReg.common : ICReg → Bool
  | .iccSGI0R | .iccSGI1R | .iccASGI1R | .iccCTLR | .iccDIR | .iccPMR | .iccRPR => true
  | .icvCTLR | .icvDIR | .icvPMR | .icvRPR => true
  | .icvIAR0 | .icvIAR1 | .otherICC _ | .otherICV _ => false

/-- TC traps the access (R110). -/
def trapsTC (e : Word) (a : RegAccess) : Bool := Hcr.tc e && a.reg.common
/-- TALL0 traps the access (R111). -/
def trapsTALL0 (e : Word) (a : RegAccess) : Bool := Hcr.tall0 e && a.isGroup0Reg
/-- TALL1 traps the access (R112). -/
def trapsTALL1 (e : Word) (a : RegAccess) : Bool := Hcr.tall1 e && a.isGroup1Reg
/-- TDIR traps the access (R113): writes of ICV_DIR, and of ICC_DIR where the implementation traps them (R11). -/
def trapsTDIR (c : Config) (e : Word) (a : RegAccess) : Bool :=
  Hcr.tdir e && a.isWrite && (a.reg == .icvDIR || a.reg == .iccDIR && c.tdirTrapsIccDir)

/-- The trap fields that apply to an access, `ICHTrap` of R115 being that there is one: only from Non-secure EL1. -/
def trapCauses (c : Config) (e : Word) (i : Inputs) (a : RegAccess) : List TrapCause :=
  if i.isNonSecure && i.el == .el1 then
    (if trapsTC e a then [.tc] else []) ++ (if trapsTALL0 e a then [.tall0] else [])
      ++ (if trapsTALL1 e a then [.tall1] else []) ++ (if trapsTDIR c e a then [.tdir] else [])
  else []

/-- The inputs meet the constraints of R42: EL2 and EL2Enabled() need HAVE_EL2, and there are NUM_LRS List registers. -/
def Inputs.admitted (c : Config) (i : Inputs) : Bool :=
  (i.el != .el2 || c.haveEL2) && (!i.el2Enabled || c.haveEL2) && i.lrs.length == c.numLrs

/-- The inputs of an access meet the constraint of R42: a common register is no Group 0 and no Group 1 register. -/
def RegAccess.admitted (a : RegAccess) : Bool := !(a.reg.common && (a.isGroup0Reg || a.isGroup1Reg))

end Sys2Proof.Machine
end

