-- ==== Sys2Proof/Machine/Operands.lean ====
section
/-! DEFINITION. The operand forms. There is one: the general register `<Rt>` (R40, R70), read by the MCR and written by
the MRC. No register is hardwired. -/

namespace Sys2Proof.Machine

/-- `x[t]` (R15, R40). The number 15 is no register; every meaning refuses it before it gets here. -/
def State.readReg (s : State) (t : RegNum) : Word :=
  if h : t.toNat < 15 then s.x[t.toNat] else 0

/-- `x[t] <- v` (R15, R40). The number 15 is no register; every meaning refuses it before it gets here. -/
def State.writeReg (s : State) (t : RegNum) (v : Word) : State :=
  if h : t.toNat < 15 then { s with x := s.x.set t.toNat v } else s

end Sys2Proof.Machine
end

