-- ==== Sys2Proof/Machine/Ops.lean ====
section
/-! DEFINITION. The shared operations: the check of an access and raising an outcome (60_exceptions.md R105, R109), the
writers of the register (10_state.md R47), what a hardware read sees (R58), and re-evaluating the outputs (R44).

An exception is raised by `raise` and by nothing else. The spec describes no entry (nothing is saved, no mode, no
vector: R126, N11) and no return (R127), so raising ends the step and the run, and there is no return to write. -/

namespace Sys2Proof.Machine

/-- What a step answers. -/
abbrev Result := Host.Outcome State Fault Refusal

/-- `raise E` (R15, R105): the step ends with the outcome and no state changes. -/
def raise (f : Fault) : Result := .fault f

/-- The argument 0x03 of the two traps (R107, R108), carried as the source gives it. -/
def trapNumber : BitVec 8 := 0x03

/-- `AccessCheck()` (R109): none where the access is permitted, else the outcome of the first test that applies. It reads
no field of the register. -/
def accessCheck (c : Config) (i : Inputs) : Option Fault :=
  if !c.haveAArch32 then some .undefined
  else
    match i.el with
    | .el0 => some .undefined
    | .el1 =>
      if i.el2Enabled && !i.el2UsesAArch32 && i.hstrEl2T12 then some (.a64SystemAccessTrap .el2 trapNumber)
      else if i.el2Enabled && i.el2UsesAArch32 && i.hstrT12 then some (.hypTrap trapNumber)
      else some .undefined
    | .el2 => if !i.hsreSre then some .undefined else none
    | .el3 => if !i.msreSre then some .undefined else none

/-- Make the access check, then complete with `done` (R80, R81). -/
def checked (s : State) (done : State) : Result :=
  match accessCheck s.cfg s.inputs with
  | some f => raise f
  | none => .next done

/-- `x[t] <- ReadValue()` under the check (R80, R83). -/
def readIchHcr (t : RegNum) (s : State) : Result := checked s (s.writeReg t (Hcr.readValue s.hcr))

/-- Store a written value: ICH_HCR only, not the synchronised value (R82, R58). -/
def State.writeHcr (s : State) (v : Word) : State := { s with hcr := Hcr.writeValue s.cfg v }

/-- `ICH_HCR <- WriteValue(x[t])` under the check (R81, R82). -/
def writeIchHcr (t : RegNum) (s : State) : Result := checked s (s.writeHcr (s.readReg t))

/-- `IncrementEOIcount()` (R94), applied to both values at once (R58; log 7). -/
def State.countEoi (s : State) : State :=
  { s with
    hcr := Hcr.increment (Config.freeCount s.draws) s.hcr
    sync := Hcr.increment (Config.freeCount s.draws) s.sync }

/-- `ICH_HCR_sync <- ICH_HCR` (R58). -/
def State.syncHcr (s : State) : State := { s with sync := s.hcr }

/-- The `Reset` event (R140): both values reset. The general registers and the inputs are not this hardware's and keep
what they hold (log 28); the outputs are re-evaluated by `settle`, to false since En is then 0. -/
def State.resetHcr (s : State) : State :=
  { s with
    hcr := Hcr.resetValue s.cfg (Config.freeResetBits s.draws)
    sync := Hcr.resetValue s.cfg (Config.freeResetBits s.draws) }

/-- `Eff` (R38) as one hardware read sees it, `view` being the free value of that read (R58). -/
def State.seenEff (s : State) (view : Nat → Word) : Word :=
  Hcr.eff s.cfg (Hcr.hardwareView s.hcr s.sync (view s.draws))

/-- `Eff` as the hardware read of the event now happening sees it. -/
def State.eventEff (s : State) : Word := s.seenEff Config.freeEventView

/-- Re-evaluate the outputs from the register and the inputs (R44, R97, R116), each by a hardware read of its own (R58),
and pass on to fresh free values (log 7, log 15, log 22). -/
def State.settle (s : State) : State :=
  { s with
    maintIRQ := maintLevel (s.seenEff Config.freeMaintView) (Hcr.eoiCount s.hcr) s.inputs
    virtualIRQ0 := virtualLevel (s.seenEff Config.freeVirtual0View) s.inputs.virtualRequest0
    virtualIRQ1 := virtualLevel (s.seenEff Config.freeVirtual1View) s.inputs.virtualRequest1
    draws := s.draws + 1 }

/-- Settle a next state; a stop stays as it is. -/
def settled : Result → Result
  | .next s => .next s.settle
  | .fault f => .fault f
  | .refused r => .refused r

end Sys2Proof.Machine
end

