-- ==== Sys2Proof/Machine/SysRegAccess.lean ====
section
/-! DEFINITION. The meanings of the two access instructions in both instruction sets (40_sysreg_access.md R80, R81). A
register number the set does not admit is refused before the access check (R40, R72). -/

namespace Sys2Proof.Machine

/-- MRC in A32 (R80, R68). -/
def execMrcA32 (t : RegNum) (s : State) : Result :=
  if rtAdmittedA32 t then readIchHcr t s else .refused .registerNotAdmitted

/-- MCR in A32 (R81, R68). -/
def execMcrA32 (t : RegNum) (s : State) : Result :=
  if rtAdmittedA32 t then writeIchHcr t s else .refused .registerNotAdmitted

/-- MRC in T32 (R80, R69). -/
def execMrcT32 (t : RegNum) (s : State) : Result :=
  if rtAdmittedT32 t then readIchHcr t s else .refused .registerNotAdmitted

/-- MCR in T32 (R81, R69). -/
def execMcrT32 (t : RegNum) (s : State) : Result :=
  if rtAdmittedT32 t then writeIchHcr t s else .refused .registerNotAdmitted

end Sys2Proof.Machine
end

