-- ==== Sys2Proof/Machine/Dispatch.lean ====
section
/-! DEFINITION. One arm per constructor of Instr, each a direct call of its meaning. -/

namespace Sys2Proof.Machine

def exec (i : Instr) (s : State) : Host.Outcome State Fault Refusal :=
  match i with
  | .mrcA32 t => Sys2Proof.Machine.execMrcA32 t s
  | .mcrA32 t => Sys2Proof.Machine.execMcrA32 t s
  | .mrcT32 t => Sys2Proof.Machine.execMrcT32 t s
  | .mcrT32 t => Sys2Proof.Machine.execMcrT32 t s

end Sys2Proof.Machine
end

