-- ==== Sys2Proof/Machine/Events.lean ====
section
/-! DEFINITION. What each event does (41_virtual_interface_events.md, 60_exceptions.md R114 and R115, 40_sysreg_access.md
R86, 20_memory.md R58, 70_reset_and_hazards.md R140), and `runEvent`, which gives an event its meaning. -/

namespace Sys2Proof.Machine

/-- `VirtualEOIRWrite(id)` (R90, R92, R93, R95, R96). -/
def State.virtualEOIRWrite (s : State) (w : EoirWrite) : State :=
  if w.idValid && w.id < 8192 && !s.inputs.eoiMode && !w.lrFound then
    if sgiGate s.cfg s.eventEff w.isVirtualSGI then s
    else if w.clearsAPBit then s.countEoi
    else if Config.freeEoirCounts s.draws then s.countEoi
    else s
  else s

/-- `VirtualDIRWrite(id)` (R91, R93, R95, R96). -/
def State.virtualDIRWrite (s : State) (w : DirWrite) : State :=
  if w.idValid && w.id < 8192 && s.inputs.eoiMode && !w.lrFound then
    if sgiGate s.cfg s.eventEff w.isVirtualSGI then s else s.countEoi
  else s

/-- `IARRead(r)` (R98): with En 0 the spurious identifier, else the input; the same for the four registers. -/
def State.iarRead (s : State) (_r : IARReg) (value : Nat) : State :=
  { s with returned := some (.iarRead (if Hcr.en s.eventEff then value else s.cfg.spuriousId)) }

/-- The cause a trap names: any one of the applicable fields (R115; log 11). -/
def pickCause (causes : List TrapCause) (free : Nat) : Option TrapCause := causes[free % causes.length]?

/-- `EL1SysRegAccess(r, isWrite)` (R115). Where the access proceeds, what it does is outside the spec and nothing of
this state changes. -/
def el1SysRegAccess (s : State) (a : RegAccess) : Result :=
  match pickCause (trapCauses s.cfg s.eventEff s.inputs a) (Config.freeCause s.draws), a.otherTrap with
  | some cause, none => raise (.trapToEL2 cause)
  | some cause, some o =>
    if Config.freeFieldTrapWins s.draws then raise (.trapToEL2 cause) else raise (.otherTrap o)
  | none, some o => raise (.otherTrap o)
  | none, none => .next s

/-- `LocalSEI` (R114). Where it does not trap, taking it is outside the spec and nothing of this state changes. -/
def localSEI (s : State) : Result :=
  if Hcr.tsei s.eventEff then raise (.trapToEL2 .tsei) else .next s

/-- An event of the virtual CPU interface happens only where EL2 is implemented (R101). -/
def needsEL2 (s : State) (done : State) : Result :=
  if s.cfg.haveEL2 then .next done else .refused .eventNeedsEL2

/-- What an event does to the state in which it happens. -/
def runEvent (e : Event) (s : State) : Result :=
  match e with
  | .instr f =>
    match decode f with
    | .ok i => exec i s
    | .error r => .refused (.encoding r)
  | .a64Write v => .next (s.writeHcr v)
  | .a64Read => .next { s with returned := some (.a64Read (Hcr.readValue s.hcr)) }
  | .virtualEOIRWrite w => needsEL2 s (s.virtualEOIRWrite w)
  | .virtualDIRWrite w => needsEL2 s (s.virtualDIRWrite w)
  | .iarRead r value => needsEL2 s (s.iarRead r value)
  | .el1SysRegAccess a => if a.admitted then el1SysRegAccess s a else .refused .inputsNotAdmitted
  | .localSEI => localSEI s
  | .contextSync => .next s.syncHcr
  | .reset => .next s.resetHcr
  | .setInputs i => if i.admitted s.cfg then .next { s with inputs := i } else .refused .inputsNotAdmitted
  | .setReg t v => .next { s with x := s.x.set t v }

/-- The next event happens in the state it leaves the list of, and the outputs are re-evaluated (R44, R57). With no
event nothing happens but the re-evaluation (log 1). -/
def advance (s : State) : Result :=
  match s.events with
  | [] => settled (.next s)
  | e :: es => settled (runEvent e { s with events := es })

end Sys2Proof.Machine
end

