-- ==== Sys2Proof/Safety.lean ====
section
/-! DEFINITION. The terms the claims use: when an access is permitted, the invariant of every state, and the gate on the
outputs. -/

namespace Sys2Proof.Machine

/-- The conditions under which an access of ICH_HCR is carried out, in the words of R143 and R85. -/
abbrev AccessPermitted (s : State) : Prop :=
  s.cfg.haveAArch32 = true ∧
    (s.inputs.el = .el2 ∧ s.inputs.hsreSre = true ∨ s.inputs.el = .el3 ∧ s.inputs.msreSre = true)

/-- The invariant of every state: the parameters and the inputs are ones that can be (R12, R13, R42), and both values of
the register have 0 in every RES0 bit that is no read-back bit (R39, R83). -/
structure State.Inv (s : State) : Prop where
  config : Hcr.configAdmitted s.cfg = true
  inputs : s.inputs.admitted s.cfg = true
  hcr : Hcr.reservedClear s.cfg s.hcr = true
  sync : Hcr.reservedClear s.cfg s.sync = true

/-- The effective field has the value `b` in the register and in the synchronised value, so every hardware read sees
`b` (R38, R58). -/
abbrev State.EffIs (s : State) (field : Word → Bool) (b : Bool) : Prop :=
  field (Hcr.eff s.cfg s.hcr) = b ∧ field (Hcr.eff s.cfg s.sync) = b

/-- No hardware read of En can see a 1 (R97). -/
abbrev State.InterfaceOff (s : State) : Prop := s.EffIs Hcr.en false

/-- Nothing but the event list, the outputs and the model's counter differs: what a step leaves as it was when its event
has no effect on the state of this hardware. -/
structure State.SameMachine (s s' : State) : Prop where
  cfg : s'.cfg = s.cfg
  x : s'.x = s.x
  hcr : s'.hcr = s.hcr
  sync : s'.sync = s.sync
  inputs : s'.inputs = s.inputs
  returned : s'.returned = s.returned

/-- Nothing but EOIcount, in the register and in the synchronised value, differs, the event list, the outputs and the
model's counter apart: what a counting event may change. -/
structure State.SameButCount (s s' : State) : Prop where
  cfg : s'.cfg = s.cfg
  x : s'.x = s.x
  hcr : ∀ n, n < 27 → s'.hcr.getLsbD n = s.hcr.getLsbD n
  sync : ∀ n, n < 27 → s'.sync.getLsbD n = s.sync.getLsbD n
  inputs : s'.inputs = s.inputs
  returned : s'.returned = s.returned

/-- The parameters, the inputs, the outputs, the event list and the model's counter are the same, and so are the
functional bits of both values: the two states differ at most in RES0 bits, in the general registers and in what was last
returned. -/
structure State.SameInEffect (s s' : State) : Prop where
  cfg : s'.cfg = s.cfg
  hcr : Hcr.eff s.cfg s'.hcr = Hcr.eff s.cfg s.hcr
  sync : Hcr.eff s.cfg s'.sync = Hcr.eff s.cfg s.sync
  inputs : s'.inputs = s.inputs
  events : s'.events = s.events
  maintIRQ : s'.maintIRQ = s.maintIRQ
  virtualIRQ0 : s'.virtualIRQ0 = s.virtualIRQ0
  virtualIRQ1 : s'.virtualIRQ1 = s.virtualIRQ1
  draws : s'.draws = s.draws

/-- No output of the virtual CPU interface is raised (R97). -/
abbrev State.Silent (s : State) : Prop :=
  s.maintIRQ = false ∧ s.virtualIRQ0 = false ∧ s.virtualIRQ1 = false

/-- The run stops here by a refusal: the word, the event or the inputs are outside the spec. A run is safe for a claim
while no step is refused. -/
def State.Refuses (s : State) : Prop := ∃ r, step s = .refused r

end Sys2Proof.Machine
end

