-- ==== Sys2Proof/Certificates/Slice0/Obligations.lean ====
section
/-! DEFINITION. The statements for the provers. `Eff.F` of the spec is `Hcr.f (Hcr.eff cfg v)`. A statement about what
a hardware read sees asks the field of the current and of the synchronised value (`State.EffIs`), so that it holds
under the lagging view of R58. -/

open Sys2Proof Sys2Proof.Machine

/-! ### Encoding -/

/-- Words of 95_test_vectors.md section 2.4 decode to the instructions beside them. -/
def Obligations.SpecWordsDecode : Prop :=
  decode (.a32 0xEE9C0F1B#32) = .ok (.mrcA32 0) ∧
  decode (.a32 0xEE9C3F1B#32) = .ok (.mrcA32 3) ∧
  decode (.a32 0xEE8CEF1B#32) = .ok (.mcrA32 14) ∧
  decode (.t32 0xEE9C#16 0x1F1B#16 false) = .ok (.mrcT32 1) ∧
  decode (.t32 0xEE8C#16 0x2F1B#16 false) = .ok (.mcrT32 2)

/-- The refused and outside forms of 95_test_vectors.md section 2.4, each by name. -/
def Obligations.NearMissesRefused : Prop :=
  decode (.a32 0x0E9C0F1B#32) = .error .conditional ∧
  decode (.a32 0xEE9CFF1B#32) = .error .registerNotAdmitted ∧
  decode (.t32 0xEE9C#16 0xDF1B#16 false) = .error .registerNotAdmitted ∧
  decode (.t32 0xEE9C#16 0x0F1B#16 true) = .error .insideITBlock ∧
  decode (.a32 0xEE9C0F3B#32) = .error .otherRegister ∧
  decode (.a32 0xEE9C0F1A#32) = .error .otherRegister ∧
  decode (.a32 0xEE1C0F1B#32) = .error .otherRegister ∧
  decode (.a32 0xEE9D0F1B#32) = .error .otherRegister ∧
  decode (.a32 0xEE9C0E1B#32) = .error .otherRegister ∧
  decode (.a32 0#32) = .error .notMrcOrMcr

/-- R67, R70: of an MRC or MCR with any operands, the five operand fields decide whether it is an access of ICH_HCR, the
direction decides which, and Rt is its register number; the positions of the fields are log 13. -/
def Obligations.OperandsSelectTheRegister : Prop :=
  ∀ f : AccessOperands,
    decode (.a32 (encodeA32 0b1110#4 f)) =
      (if f.coproc = 15 ∧ f.opc1 = 4 ∧ f.crn = 12 ∧ f.crm = 11 ∧ f.opc2 = 0 then
        if f.t = 15 then .error .registerNotAdmitted
        else .ok (if f.isRead then .mrcA32 f.t else .mcrA32 f.t)
      else .error .otherRegister) ∧
    decode (.t32 (encodeT32First f) (encodeT32Second f) false) =
      (if f.coproc = 15 ∧ f.opc1 = 4 ∧ f.crn = 12 ∧ f.crm = 11 ∧ f.opc2 = 0 then
        if f.t = 15 ∨ f.t = 13 then .error .registerNotAdmitted
        else .ok (if f.isRead then .mrcT32 f.t else .mcrT32 f.t)
      else .error .otherRegister)

/-- R72, D5: an access of ICH_HCR with another condition, or inside an IT block, is refused by name whatever its register
and direction. -/
def Obligations.ConditionalFormsRefused : Prop :=
  ∀ (f : AccessOperands) (cond : BitVec 4), cond ≠ 0b1110 →
    f.coproc = 15 ∧ f.opc1 = 4 ∧ f.crn = 12 ∧ f.crm = 11 ∧ f.opc2 = 0 →
    decode (.a32 (encodeA32 cond f)) = .error .conditional ∧
    decode (.t32 (encodeT32First f) (encodeT32Second f) true) = .error .insideITBlock

/-- Every admitted instruction is what its own words decode to. -/
def Obligations.DecodeOfEncode : Prop :=
  ∀ i : Instr, i.wellFormed = true → decode (encode i) = .ok i

/-- Every word and every pair of halfwords that decodes is the encoding of the admitted instruction it decodes to: no two
words mean one instruction, and no bit is ignored. -/
def Obligations.DecodedWordsAreEncodings : Prop :=
  (∀ (w : Word) (i : Instr), decode (.a32 w) = .ok i → i.wellFormed = true ∧ encode i = .a32 w) ∧
  (∀ (a b : Halfword) (q : Bool) (i : Instr),
    decode (.t32 a b q) = .ok i → i.wellFormed = true ∧ encode i = .t32 a b q)

/-- Which numbers decode, by the match and mask of spec/opcode_table.json. -/
def Obligations.DecodingByMatchAndMask : Prop :=
  (∀ (w : Word) (t : RegNum),
    (decode (.a32 w) = .ok (.mrcA32 t) ↔
      w &&& 0xFFFF0FFF#32 = 0xEE9C0F1B#32 ∧ w.extractLsb' 12 4 = t ∧ t ≠ 15) ∧
    (decode (.a32 w) = .ok (.mcrA32 t) ↔
      w &&& 0xFFFF0FFF#32 = 0xEE8C0F1B#32 ∧ w.extractLsb' 12 4 = t ∧ t ≠ 15)) ∧
  (∀ (a b : Halfword) (q : Bool) (t : RegNum),
    (decode (.t32 a b q) = .ok (.mrcT32 t) ↔
      a ++ b &&& 0xFFFF0FFF#32 = 0xEE9C0F1B#32 ∧ b.extractLsb' 12 4 = t ∧ t ≠ 15 ∧ t ≠ 13 ∧ q = false) ∧
    (decode (.t32 a b q) = .ok (.mcrT32 t) ↔
      a ++ b &&& 0xFFFF0FFF#32 = 0xEE8C0F1B#32 ∧ b.extractLsb' 12 4 = t ∧ t ≠ 15 ∧ t ≠ 13 ∧ q = false))

/-! ### The access instructions -/

/-- R109: the outcome of every admitted instruction, by the tests in the source's order. Each line's conditions leave out
the lines before it; no line looks at the register. An outcome that is raised is a fault (log 3). -/
def Obligations.AccessCheckDecides : Prop :=
  ∀ (i : Instr) (s : State), i.wellFormed = true →
    (s.cfg.haveAArch32 = false → exec i s = .fault .undefined) ∧
    (s.cfg.haveAArch32 = true →
      (s.inputs.el = .el0 → exec i s = .fault .undefined) ∧
      (s.inputs.el = .el1 →
        (s.inputs.el2Enabled = true → s.inputs.el2UsesAArch32 = false → s.inputs.hstrEl2T12 = true →
          exec i s = .fault (.a64SystemAccessTrap .el2 0x03)) ∧
        (s.inputs.el2Enabled = true → s.inputs.el2UsesAArch32 = true → s.inputs.hstrT12 = true →
          exec i s = .fault (.hypTrap 0x03)) ∧
        (s.inputs.el2Enabled = false ∨ s.inputs.el2UsesAArch32 = false ∧ s.inputs.hstrEl2T12 = false ∨
            s.inputs.el2UsesAArch32 = true ∧ s.inputs.hstrT12 = false →
          exec i s = .fault .undefined)) ∧
      (s.inputs.el = .el2 →
        (s.inputs.hsreSre = false → exec i s = .fault .undefined) ∧
        (s.inputs.hsreSre = true → ∃ s', exec i s = .next s')) ∧
      (s.inputs.el = .el3 →
        (s.inputs.msreSre = false → exec i s = .fault .undefined) ∧
        (s.inputs.msreSre = true → ∃ s', exec i s = .next s')))

/-- R106: the five cases in which an access is UNDEFINED, and no others. -/
def Obligations.UndefinedExactlyWhen : Prop :=
  ∀ (i : Instr) (s : State), i.wellFormed = true →
    (exec i s = .fault .undefined ↔
      s.cfg.haveAArch32 = false ∨
      s.inputs.el = .el0 ∨
      (s.inputs.el = .el1 ∧
        ¬ (s.inputs.el2Enabled = true ∧ s.inputs.el2UsesAArch32 = false ∧ s.inputs.hstrEl2T12 = true) ∧
        ¬ (s.inputs.el2Enabled = true ∧ s.inputs.el2UsesAArch32 = true ∧ s.inputs.hstrT12 = true)) ∨
      (s.inputs.el = .el2 ∧ s.inputs.hsreSre = false) ∨
      (s.inputs.el = .el3 ∧ s.inputs.msreSre = false))

/-- R107 and R108: when an access is trapped to an AArch64 EL2, and when to an AArch32 EL2. -/
def Obligations.T12TrapsExactlyWhen : Prop :=
  ∀ (i : Instr) (s : State), i.wellFormed = true → s.cfg.haveAArch32 = true →
    (exec i s = .fault (.a64SystemAccessTrap .el2 0x03) ↔
      s.inputs.el = .el1 ∧ s.inputs.el2Enabled = true ∧ s.inputs.el2UsesAArch32 = false ∧
        s.inputs.hstrEl2T12 = true) ∧
    (exec i s = .fault (.hypTrap 0x03) ↔
      s.inputs.el = .el1 ∧ s.inputs.el2Enabled = true ∧ s.inputs.el2UsesAArch32 = true ∧ s.inputs.hstrT12 = true)

/-- R80: where the access is permitted the MRC completes in both instruction sets, x[t] receives all 32 bits of ICH_HCR,
and nothing else of the state changes: no other general register, not ICH_HCR, no input, no output. Elsewhere it raises
exactly what AccessCheck() decides (AccessCheckDecides says what that is). -/
def Obligations.MrcCompletes : Prop :=
  (∀ (s : State) (i : Instr) (t : RegNum),
    (i = .mrcA32 t ∧ t ≠ 15 ∨ i = .mrcT32 t ∧ t ≠ 15 ∧ t ≠ 13) →
    s.cfg.haveAArch32 = true →
    (s.inputs.el = .el2 ∧ s.inputs.hsreSre = true ∨ s.inputs.el = .el3 ∧ s.inputs.msreSre = true) →
    ∃ s', exec i s = .next s' ∧
      s'.readReg t = s.hcr ∧
      (∀ u, u ≠ t → s'.readReg u = s.readReg u) ∧
      s' = { s with x := s'.x }) ∧
  (∀ (s : State) (i : Instr) (t : RegNum) (f : Fault),
    (i = .mrcA32 t ∧ t ≠ 15 ∨ i = .mrcT32 t ∧ t ≠ 15 ∧ t ≠ 13) →
    (exec i s = .fault f ↔ accessCheck s.cfg s.inputs = some f))

/-- R81: where the access is permitted the MCR completes in both instruction sets, ICH_HCR receives x[t] without the RES0
bits that are no read-back bits (R82), and nothing else of the state changes: no general register, not the synchronised
value (R58), no input, no output. Elsewhere it raises exactly what AccessCheck() decides. -/
def Obligations.McrCompletes : Prop :=
  (∀ (s : State) (i : Instr) (t : RegNum),
    (i = .mcrA32 t ∧ t ≠ 15 ∨ i = .mcrT32 t ∧ t ≠ 15 ∧ t ≠ 13) →
    s.cfg.haveAArch32 = true →
    (s.inputs.el = .el2 ∧ s.inputs.hsreSre = true ∨ s.inputs.el = .el3 ∧ s.inputs.msreSre = true) →
    ∃ s', exec i s = .next s' ∧
      s'.hcr = s.readReg t &&& (~~~(Hcr.res0Mask s.cfg) ||| s.cfg.res0Readback) ∧
      s' = { s with hcr := s'.hcr }) ∧
  (∀ (s : State) (i : Instr) (t : RegNum) (f : Fault),
    (i = .mcrA32 t ∧ t ≠ 15 ∨ i = .mcrT32 t ∧ t ≠ 15 ∧ t ≠ 13) →
    (exec i s = .fault f ↔ accessCheck s.cfg s.inputs = some f))

/-- R40, R72, D6: the register numbers that are refused, in every state; the refusal is the spec's own choice (log 14). -/
def Obligations.RegisterNumbersRefused : Prop :=
  ∀ s : State,
    exec (.mrcA32 15) s = .refused .registerNotAdmitted ∧ exec (.mcrA32 15) s = .refused .registerNotAdmitted ∧
    exec (.mrcT32 15) s = .refused .registerNotAdmitted ∧ exec (.mcrT32 15) s = .refused .registerNotAdmitted ∧
    exec (.mrcT32 13) s = .refused .registerNotAdmitted ∧ exec (.mcrT32 13) s = .refused .registerNotAdmitted

/-- R82 field by field: what each bit of ICH_HCR holds after a completed MCR of the value v. -/
def Obligations.WrittenFieldByField : Prop :=
  ∀ (s s' : State) (i : Instr) (t : RegNum), (i = .mcrA32 t ∨ i = .mcrT32 t) → exec i s = .next s' →
    s.cfg.haveEL2 = true →
    Hcr.eoiCount s'.hcr = Hcr.eoiCount (s.readReg t) ∧
    (∀ n, n ∈ [12, 11, 10, 7, 6, 5, 4, 3, 2, 1, 0] → s'.hcr.getLsbD n = (s.readReg t).getLsbD n) ∧
    s'.hcr.getLsbD 14 = ((s.readReg t).getLsbD 14 && (s.cfg.tdirSupported || s.cfg.res0Readback.getLsbD 14)) ∧
    s'.hcr.getLsbD 13 = ((s.readReg t).getLsbD 13 && (s.cfg.seis || s.cfg.res0Readback.getLsbD 13)) ∧
    s'.hcr.getLsbD 8 = ((s.readReg t).getLsbD 8 && (s.cfg.featGICv4p1 || s.cfg.res0Readback.getLsbD 8)) ∧
    (∀ n, (n = 9 ∨ 15 ≤ n ∧ n ≤ 26) → s'.hcr.getLsbD n = ((s.readReg t).getLsbD n && s.cfg.res0Readback.getLsbD n))

/-- R57, D10 (general knowledge, 93 G13): an MRC that follows an MCR with nothing between returns what was stored. -/
def Obligations.ReadReturnsLastWrite : Prop :=
  ∀ (s s₁ s₂ : State) (w r : Instr) (t u : RegNum), (w = .mcrA32 t ∨ w = .mcrT32 t) → (r = .mrcA32 u ∨ r = .mrcT32 u) →
    exec w s = .next s₁ → exec r s₁ = .next s₂ →
    s₂.readReg u = s.readReg t &&& (~~~(Hcr.res0Mask s.cfg) ||| s.cfg.res0Readback)

/-- R84, D3: EL2 not implemented. The invariant rules out PSTATE.EL = EL2 and an enabled EL2 (R42). -/
def Obligations.NoEL2Accesses : Prop :=
  ∀ (s : State) (i : Instr), s.Inv → s.cfg.haveEL2 = false → i.wellFormed = true →
    s.inputs.el ≠ .el2 ∧
    (s.inputs.el = .el1 → exec i s = .fault .undefined) ∧
    (s.inputs.el = .el3 → s.inputs.msreSre = false → exec i s = .fault .undefined) ∧
    (s.inputs.el = .el3 → s.inputs.msreSre = true → s.cfg.haveAArch32 = true →
      ∃ s', exec i s = .next s' ∧
        (∀ t, (i = .mrcA32 t ∨ i = .mrcT32 t) → s'.readReg t &&& ~~~s.cfg.res0Readback = 0) ∧
        (∀ t, (i = .mcrA32 t ∨ i = .mcrT32 t) → s'.hcr = s.readReg t &&& s.cfg.res0Readback))

/-- R128: EL0 and EL1 have no access. No instruction completes there, and what it ends in does not depend on the register,
on the synchronised value or on the general registers: nothing of them is learnt. -/
def Obligations.NoAccessBelowEL2 : Prop :=
  ∀ (s : State) (i : Instr), (s.inputs.el = .el0 ∨ s.inputs.el = .el1) →
    (∀ s', exec i s ≠ .next s') ∧
    (∀ (h y : Word) (x : Vector Word 15), exec i { s with hcr := h, sync := y, x := x } = exec i s)

/-! ### The register's value -/

/-- R38: RES0_MASK bit by bit, in every implementation, and the largest and smallest sets of functional bits. -/
def Obligations.Res0MaskBitByBit : Prop :=
  ∀ c : Config,
    (∀ n, n < 32 → ((Hcr.res0Mask c).getLsbD n = true ↔
      c.haveEL2 = false ∨ n = 9 ∨ 15 ≤ n ∧ n ≤ 26 ∨ n = 14 ∧ c.tdirSupported = false ∨ n = 13 ∧ c.seis = false ∨
        n = 8 ∧ c.featGICv4p1 = false)) ∧
    (c.haveEL2 = true → c.tdirSupported = true → c.seis = true → c.featGICv4p1 = true →
      ~~~(Hcr.res0Mask c) = 0xF8007DFF#32) ∧
    (c.haveEL2 = true → c.tdirSupported = false → c.seis = false → c.featGICv4p1 = false →
      ~~~(Hcr.res0Mask c) = 0xF8001CFF#32)

/-- R20: the value is its seventeen parts, from bit 31 down to bit 0. -/
def Obligations.SeventeenParts : Prop :=
  ∀ v : Word,
    v = Hcr.eoiCount v ++ v.extractLsb' 15 12 ++ BitVec.ofBool (Hcr.tdir v) ++ BitVec.ofBool (Hcr.tsei v)
      ++ BitVec.ofBool (Hcr.tall1 v) ++ BitVec.ofBool (Hcr.tall0 v) ++ BitVec.ofBool (Hcr.tc v)
      ++ BitVec.ofBool (v.getLsbD 9) ++ BitVec.ofBool (Hcr.vSGIEOICount v) ++ BitVec.ofBool (Hcr.vGrp1DIE v)
      ++ BitVec.ofBool (Hcr.vGrp1EIE v) ++ BitVec.ofBool (Hcr.vGrp0DIE v) ++ BitVec.ofBool (Hcr.vGrp0EIE v)
      ++ BitVec.ofBool (Hcr.npie v) ++ BitVec.ofBool (Hcr.lrenpie v) ++ BitVec.ofBool (Hcr.uie v)
      ++ BitVec.ofBool (Hcr.en v)

/-- R58 (the lagging view, D11, log 7): one hardware read takes every bit from the current or from the synchronised
value as `choice` says bit by bit, and EOIcount from the current one. With the choice of all ones it is the immediate
view, with all zeros the synchronised value (but for EOIcount). -/
def Obligations.HardwareReadFieldwise : Prop :=
  ∀ current synced choice : Word,
    (∀ n, n < 27 → (Hcr.hardwareView current synced choice).getLsbD n =
      if choice.getLsbD n then current.getLsbD n else synced.getLsbD n) ∧
    Hcr.eoiCount (Hcr.hardwareView current synced choice) = Hcr.eoiCount current ∧
    Hcr.hardwareView current synced 0xFFFFFFFF#32 = current ∧
    Hcr.hardwareView current synced 0 = (synced &&& 0x07FFFFFF#32) ||| (current &&& 0xF8000000#32)

/-! ### A step -/

/-- A step whose event is an instruction that decodes runs exec of it on the state without the event, then re-evaluates
the outputs (`settled`). -/
def Obligations.StepRunsDecodedInstruction : Prop :=
  (∀ (s : State) (f : Fetched) (i : Instr) (es : List Event), s.events = .instr f :: es → decode f = .ok i →
    step s = settled (exec i { s with events := es })) ∧
  (∀ (s : State) (w : Nat) (i : Instr), decodeTableWord 32 w = some i →
    step (s.withFetchWord 32 w) = settled (exec i s))

/-- A step whose event is an instruction that does not decode is refused by the decoder's name (R72). -/
def Obligations.StepRefusesUndecoded : Prop :=
  ∀ (s : State) (f : Fetched) (r : DecodeError) (es : List Event), s.events = .instr f :: es → decode f = .error r →
    step s = .refused (.encoding r)

/-- R105: only an instruction, an access to another interrupt-controller register and a local SEI raise an outcome, each
only its own: an access a trap by TC, TALL0, TALL1 or TDIR, or the outcome the event says another mechanism gives it. -/
def Obligations.OnlyTheseEventsRaise : Prop :=
  ∀ (s : State) (f : Fault), step s = .fault f →
    (∃ g es, s.events = .instr g :: es ∧
      (f = .undefined ∨ f = .a64SystemAccessTrap .el2 0x03 ∨ f = .hypTrap 0x03)) ∨
    (∃ a es, s.events = .el1SysRegAccess a :: es ∧
      ((∃ k, f = .trapToEL2 k ∧ (k = .tc ∨ k = .tall0 ∨ k = .tall1 ∨ k = .tdir)) ∨
        ∃ o, f = .otherTrap o ∧ a.otherTrap = some o)) ∨
    (∃ es, s.events = .localSEI :: es ∧ f = .trapToEL2 .tsei)

/-! ### Events of the virtual CPU interface -/

/-- R90 with R94: a virtual EOIR write that meets the four conditions, clears an Active Priorities bit and is not gated
counts one, whatever En is (D14), and changes nothing but EOIcount. The increment applies to both values (R58; D11, log
7). -/
def Obligations.EoirWriteCounts : Prop :=
  ∀ (s : State) (w : EoirWrite) (es : List Event), s.events = .virtualEOIRWrite w :: es →
    s.cfg.haveEL2 = true → w.idValid = true → w.id < 8192 → s.inputs.eoiMode = false → w.lrFound = false →
    w.clearsAPBit = true → (w.isVirtualSGI = false ∨ s.EffIs Hcr.vSGIEOICount false) →
    (Hcr.eoiCount s.hcr).toNat < 31 →
    ∃ s', step s = .next s' ∧ s'.events = es ∧
      (Hcr.eoiCount s'.hcr).toNat = (Hcr.eoiCount s.hcr).toNat + 1 ∧
      ((Hcr.eoiCount s.sync).toNat < 31 → (Hcr.eoiCount s'.sync).toNat = (Hcr.eoiCount s.sync).toNat + 1) ∧
      s.SameButCount s'

/-- R91 with R94: the same for a virtual DIR write with EOI mode one, which has no Active Priorities condition. The
increment applies to both values (R58; D11, log 7). -/
def Obligations.DirWriteCounts : Prop :=
  ∀ (s : State) (w : DirWrite) (es : List Event), s.events = .virtualDIRWrite w :: es →
    s.cfg.haveEL2 = true → w.idValid = true → w.id < 8192 → s.inputs.eoiMode = true → w.lrFound = false →
    (w.isVirtualSGI = false ∨ s.EffIs Hcr.vSGIEOICount false) →
    (Hcr.eoiCount s.hcr).toNat < 31 →
    ∃ s', step s = .next s' ∧ s'.events = es ∧
      (Hcr.eoiCount s'.hcr).toNat = (Hcr.eoiCount s.hcr).toNat + 1 ∧
      ((Hcr.eoiCount s.sync).toNat < 31 → (Hcr.eoiCount s'.sync).toNat = (Hcr.eoiCount s.sync).toNat + 1) ∧
      s.SameButCount s'

/-- R92: an EOIR write that clears no Active Priorities bit counts one or leaves EOIcount unchanged, the permitted
behaviours and no other; which of the two is a free value (log 9). Both values count or neither does (R58; log 7). -/
def Obligations.EoirWriteMayCount : Prop :=
  ∀ (s : State) (w : EoirWrite) (es : List Event), s.events = .virtualEOIRWrite w :: es →
    s.cfg.haveEL2 = true → w.clearsAPBit = false → (Hcr.eoiCount s.hcr).toNat < 31 →
    ∃ s', step s = .next s' ∧ s'.events = es ∧ s.SameButCount s' ∧
      (s'.hcr = s.hcr ∧ s'.sync = s.sync ∨
        (Hcr.eoiCount s'.hcr).toNat = (Hcr.eoiCount s.hcr).toNat + 1 ∧
        ((Hcr.eoiCount s.sync).toNat < 31 → (Hcr.eoiCount s'.sync).toNat = (Hcr.eoiCount s.sync).toNat + 1))

/-- R95 and R96: a write that finds a List register, whose identifier is not valid, or whose identifier is 8192 or above
never counts, whatever the other inputs are. -/
def Obligations.FoundOrInvalidNotCounted : Prop :=
  (∀ (s : State) (w : EoirWrite) (es : List Event), s.events = .virtualEOIRWrite w :: es → s.cfg.haveEL2 = true →
    (w.lrFound = true ∨ w.idValid = false ∨ 8192 ≤ w.id) →
    ∃ s', step s = .next s' ∧ s'.events = es ∧ s.SameMachine s') ∧
  (∀ (s : State) (w : DirWrite) (es : List Event), s.events = .virtualDIRWrite w :: es → s.cfg.haveEL2 = true →
    (w.lrFound = true ∨ w.idValid = false ∨ 8192 ≤ w.id) →
    ∃ s', step s = .next s' ∧ s'.events = es ∧ s.SameMachine s')

/-- R90, R91 and R93: an EOIR write with EOI mode one, a DIR write with EOI mode zero, and a virtual SGI while the gate is
closed do not count; the gate wins over the choice of R92. -/
def Obligations.WrongModeOrGatedNotCounted : Prop :=
  (∀ (s : State) (w : EoirWrite) (es : List Event), s.events = .virtualEOIRWrite w :: es → s.cfg.haveEL2 = true →
    (s.inputs.eoiMode = true ∨
      s.cfg.featGICv4p1 = true ∧ w.isVirtualSGI = true ∧ s.EffIs Hcr.vSGIEOICount true) →
    ∃ s', step s = .next s' ∧ s'.events = es ∧ s.SameMachine s') ∧
  (∀ (s : State) (w : DirWrite) (es : List Event), s.events = .virtualDIRWrite w :: es → s.cfg.haveEL2 = true →
    (s.inputs.eoiMode = false ∨
      s.cfg.featGICv4p1 = true ∧ w.isVirtualSGI = true ∧ s.EffIs Hcr.vSGIEOICount true) →
    ∃ s', step s = .next s' ∧ s'.events = es ∧ s.SameMachine s')

/-- R94, D4: with EOIcount 31 a write completes too and changes nothing but EOIcount; the new count is a free value
(log 8), so the statement says nothing of it. -/
def Obligations.FullCountKeepsOtherBits : Prop :=
  (∀ (s : State) (w : EoirWrite) (es : List Event), s.events = .virtualEOIRWrite w :: es → s.cfg.haveEL2 = true →
    (Hcr.eoiCount s.hcr).toNat = 31 → ∃ s', step s = .next s' ∧ s'.events = es ∧ s.SameButCount s') ∧
  (∀ (s : State) (w : DirWrite) (es : List Event), s.events = .virtualDIRWrite w :: es → s.cfg.haveEL2 = true →
    (Hcr.eoiCount s.hcr).toNat = 31 → ∃ s', step s = .next s' ∧ s'.events = es ∧ s.SameButCount s')

/-- R101, D28: without EL2 the events of the virtual CPU interface do not occur; the model refuses them (log 16). -/
def Obligations.NoInterfaceEventsWithoutEL2 : Prop :=
  ∀ (s : State) (es : List Event), s.cfg.haveEL2 = false →
    (∀ w, s.events = .virtualEOIRWrite w :: es → step s = .refused .eventNeedsEL2) ∧
    (∀ w, s.events = .virtualDIRWrite w :: es → step s = .refused .eventNeedsEL2) ∧
    (∀ r v, s.events = .iarRead r v :: es → step s = .refused .eventNeedsEL2)

/-- R98: a read of any of the four IAR registers returns the spurious identifier with En 0 and the environment's value
with En 1, and changes nothing else. En is asked of the current and of the synchronised value (R58, D11; log 7, the model's
choice of view), and the result stands in the model's own field `returned` (log 18). -/
def Obligations.IarReadGatedByEn : Prop :=
  ∀ (s : State) (r : IARReg) (v : Nat) (es : List Event), s.events = .iarRead r v :: es → s.cfg.haveEL2 = true →
    ∃ s', step s = .next s' ∧ s'.events = es ∧
      (s.EffIs Hcr.en false → s'.returned = some (.iarRead s.cfg.spuriousId)) ∧
      (s.EffIs Hcr.en true → s'.returned = some (.iarRead v)) ∧
      s'.cfg = s.cfg ∧ s'.x = s.x ∧ s'.hcr = s.hcr ∧ s'.sync = s.sync ∧ s'.inputs = s.inputs

/-- R86, D21: the AArch64 name reads and writes the same storage under the same field rules (log 26). -/
def Obligations.A64NameSameStorage : Prop :=
  (∀ (s : State) (v : Word) (es : List Event), s.events = .a64Write v :: es →
    ∃ s', step s = .next s' ∧ s'.events = es ∧
      s'.hcr = v &&& (~~~(Hcr.res0Mask s.cfg) ||| s.cfg.res0Readback) ∧
      s'.cfg = s.cfg ∧ s'.x = s.x ∧ s'.sync = s.sync ∧ s'.inputs = s.inputs ∧ s'.returned = s.returned) ∧
  (∀ (s : State) (es : List Event), s.events = .a64Read :: es →
    ∃ s', step s = .next s' ∧ s'.events = es ∧ s'.returned = some (.a64Read s.hcr) ∧
      s'.cfg = s.cfg ∧ s'.x = s.x ∧ s'.hcr = s.hcr ∧ s'.sync = s.sync ∧ s'.inputs = s.inputs)

/-- R58 (D11, log 7): a context synchronisation makes the synchronised value the current one and changes nothing else;
an MCR or a write through the AArch64 name leaves the synchronised value as it was. -/
def Obligations.ContextSyncSynchronises : Prop :=
  (∀ (s : State) (es : List Event), s.events = .contextSync :: es →
    ∃ s', step s = .next s' ∧ s'.events = es ∧ s'.sync = s.hcr ∧ s'.hcr = s.hcr ∧
      s'.cfg = s.cfg ∧ s'.x = s.x ∧ s'.inputs = s.inputs ∧ s'.returned = s.returned) ∧
  (∀ s s' : State, step s = .next s' → s'.sync ≠ s.sync →
    (∃ es, s.events = .contextSync :: es) ∨ (∃ es, s.events = .reset :: es) ∨
    (∃ w es, s.events = .virtualEOIRWrite w :: es) ∨ (∃ w es, s.events = .virtualDIRWrite w :: es))

/-! ### Field traps -/

/-- R110: with TC 1 every Non-secure EL1 access, read or write, to one of the eleven common registers traps to EL2; with
TC 0, and of any other register, TC traps none. TC is asked of the current and of the synchronised value (R58, D11; log 7,
the model's choice of view); an access another mechanism traps too is CompetingTraps (D31; log 11). -/
def Obligations.CommonRegistersTrap : Prop :=
  ∀ (s : State) (a : RegAccess) (es : List Event), s.events = .el1SysRegAccess a :: es → a.admitted = true →
    s.inputs.isNonSecure = true → s.inputs.el = .el1 → a.otherTrap = none →
    (s.EffIs Hcr.tc true →
      a.reg ∈ [ICReg.iccSGI0R, .iccSGI1R, .iccASGI1R, .iccCTLR, .iccDIR, .iccPMR, .iccRPR, .icvCTLR, .icvDIR, .icvPMR,
        .icvRPR] →
      ∃ k, step s = .fault (.trapToEL2 k)) ∧
    (s.EffIs Hcr.tc false ∨
        a.reg ∉ [ICReg.iccSGI0R, .iccSGI1R, .iccASGI1R, .iccCTLR, .iccDIR, .iccPMR, .iccRPR, .icvCTLR, .icvDIR, .icvPMR,
          .icvRPR] →
      step s ≠ .fault (.trapToEL2 .tc))

/-- R111 and R112: with TALL0 (TALL1) 1 every Non-secure EL1 access, read or write, to a Group 0 (Group 1) register traps
to EL2; with 0, and of any other register, the field traps none. The fields are asked of the current and of the
synchronised value (R58, D11; log 7, the model's choice of view); an access another mechanism traps too is CompetingTraps
(D31; log 11). -/
def Obligations.GroupRegistersTrap : Prop :=
  ∀ (s : State) (a : RegAccess) (es : List Event), s.events = .el1SysRegAccess a :: es → a.admitted = true →
    s.inputs.isNonSecure = true → s.inputs.el = .el1 → a.otherTrap = none →
    (s.EffIs Hcr.tall0 true → a.isGroup0Reg = true → ∃ k, step s = .fault (.trapToEL2 k)) ∧
    (s.EffIs Hcr.tall0 false ∨ a.isGroup0Reg = false → step s ≠ .fault (.trapToEL2 .tall0)) ∧
    (s.EffIs Hcr.tall1 true → a.isGroup1Reg = true → ∃ k, step s = .fault (.trapToEL2 k)) ∧
    (s.EffIs Hcr.tall1 false ∨ a.isGroup1Reg = false → step s ≠ .fault (.trapToEL2 .tall1))

/-- R113: with TDIR 1 a Non-secure EL1 write of ICV_DIR traps to EL2, and one of ICC_DIR does in the implementations that
trap it; with TDIR 0, of a read, and of any other access TDIR traps none. TDIR is asked of the current and of the
synchronised value (R58, D11; log 7, the model's choice of view); an access another mechanism traps too is CompetingTraps
(D31; log 11). -/
def Obligations.DirWritesTrap : Prop :=
  ∀ (s : State) (a : RegAccess) (es : List Event), s.events = .el1SysRegAccess a :: es → a.admitted = true →
    s.inputs.isNonSecure = true → s.inputs.el = .el1 → a.otherTrap = none →
    (s.EffIs Hcr.tdir true → a.isWrite = true →
      (a.reg = .icvDIR ∨ a.reg = .iccDIR ∧ s.cfg.tdirTrapsIccDir = true) →
      ∃ k, step s = .fault (.trapToEL2 k)) ∧
    (s.EffIs Hcr.tdir false ∨ a.isWrite = false ∨
        a.reg ≠ .icvDIR ∧ (a.reg ≠ .iccDIR ∨ s.cfg.tdirTrapsIccDir = false) →
      step s ≠ .fault (.trapToEL2 .tdir)) ∧
    (s.cfg.tdirSupported = false → step s ≠ .fault (.trapToEL2 .tdir))

/-- R115: an access that no field traps proceeds with no effect on this state where no other mechanism traps it, and has
that mechanism's outcome where one does. An access that is not from Non-secure EL1 is trapped by no field (R129). R115 says
of a proceeding access only that ICH_HCR is unchanged; that the rest of the state stays too is the model's choice (DESIGN
CHOICE, log 21), and the fields are asked of both values (log 7). -/
def Obligations.UntrappedAccessProceeds : Prop :=
  ∀ (s : State) (a : RegAccess) (es : List Event), s.events = .el1SysRegAccess a :: es → a.admitted = true →
    (s.inputs.isNonSecure = false ∨ s.inputs.el ≠ .el1 ∨
      (s.EffIs Hcr.tc false ∨ a.reg ∉ [ICReg.iccSGI0R, .iccSGI1R, .iccASGI1R, .iccCTLR, .iccDIR, .iccPMR, .iccRPR,
        .icvCTLR, .icvDIR, .icvPMR, .icvRPR]) ∧
      (s.EffIs Hcr.tall0 false ∨ a.isGroup0Reg = false) ∧
      (s.EffIs Hcr.tall1 false ∨ a.isGroup1Reg = false) ∧
      (s.EffIs Hcr.tdir false ∨ a.isWrite = false ∨
        a.reg ≠ .icvDIR ∧ (a.reg ≠ .iccDIR ∨ s.cfg.tdirTrapsIccDir = false))) →
    (a.otherTrap = none → ∃ s', step s = .next s' ∧ s'.events = es ∧ s.SameMachine s') ∧
    (∀ o, a.otherTrap = some o → step s = .fault (.otherTrap o))

/-- R115: the cause a trap names is a field that applies to the access: it is 1 in the register or in the synchronised
value, and the access is one the field covers, from Non-secure EL1. -/
def Obligations.TrapCauseApplies : Prop :=
  ∀ (s : State) (a : RegAccess) (es : List Event) (k : TrapCause), s.events = .el1SysRegAccess a :: es →
    step s = .fault (.trapToEL2 k) →
    s.inputs.isNonSecure = true ∧ s.inputs.el = .el1 ∧
    (k = .tc ∧ ¬ s.EffIs Hcr.tc false ∧
        a.reg ∈ [ICReg.iccSGI0R, .iccSGI1R, .iccASGI1R, .iccCTLR, .iccDIR, .iccPMR, .iccRPR, .icvCTLR, .icvDIR,
          .icvPMR, .icvRPR] ∨
      k = .tall0 ∧ ¬ s.EffIs Hcr.tall0 false ∧ a.isGroup0Reg = true ∨
      k = .tall1 ∧ ¬ s.EffIs Hcr.tall1 false ∧ a.isGroup1Reg = true ∨
      k = .tdir ∧ ¬ s.EffIs Hcr.tdir false ∧ a.isWrite = true ∧
        (a.reg = .icvDIR ∨ a.reg = .iccDIR ∧ s.cfg.tdirTrapsIccDir = true))

/-- R115, D31: an access that another mechanism traps ends in that mechanism's outcome or in a field trap; where both apply
the choice is free (log 11). -/
def Obligations.CompetingTraps : Prop :=
  ∀ (s : State) (a : RegAccess) (es : List Event) (o : Nat), s.events = .el1SysRegAccess a :: es → a.admitted = true →
    s.inputs.isNonSecure = true → s.inputs.el = .el1 → a.otherTrap = some o →
    (step s = .fault (.otherTrap o) ∨ ∃ k, step s = .fault (.trapToEL2 k))

/-- R114: with TSEI 1 a local SEI traps to EL2; with 0 it does not, and changes nothing of this state. R114 says of an
untrapped SEI only that ICH_HCR is unchanged: that the rest of the state stays too is the model's choice (DESIGN CHOICE, log
21), as is an SEI with SEIS 0 having no effect instead of not occurring (log 16). TSEI is asked of both values (log 7). -/
def Obligations.LocalSEITraps : Prop :=
  ∀ (s : State) (es : List Event), s.events = .localSEI :: es →
    (s.EffIs Hcr.tsei true → step s = .fault (.trapToEL2 .tsei)) ∧
    (s.EffIs Hcr.tsei false → ∃ s', step s = .next s' ∧ s'.events = es ∧ s.SameMachine s')

/-! ### Reset and outputs -/

/-- R140, R141 and R46: a reset leaves every functional bit 0 in both values, RES0 bits 0 unless they are read-back bits,
the outputs silent, and everything that is not this hardware's as it was. -/
def Obligations.ResetClearsFunctionalBits : Prop :=
  ∀ (s : State) (es : List Event), s.events = .reset :: es →
    ∃ s', step s = .next s' ∧ s'.events = es ∧
      s'.hcr &&& ~~~(Hcr.res0Mask s.cfg) = 0 ∧ s'.hcr &&& ~~~s.cfg.res0Readback = 0 ∧ s'.sync = s'.hcr ∧ s'.Silent ∧
      s'.cfg = s.cfg ∧ s'.x = s.x ∧ s'.inputs = s.inputs ∧ s'.returned = s.returned

/-- R46, R140: the state after the first reset, of every implementation and with every input and draw: every functional
bit 0, outputs silent; and of the reference implementation (log 5) the register is 0x00000000. -/
def Obligations.StateAfterReset : Prop :=
  (∀ (c : Config) (i : Inputs) (free : Word),
    (State.resetOf c i free).hcr &&& ~~~(Hcr.res0Mask c) = 0 ∧
    (State.resetOf c i free).hcr &&& ~~~c.res0Readback = 0 ∧
    (State.resetOf c i free).sync = (State.resetOf c i free).hcr ∧ (State.resetOf c i free).Silent ∧
    (State.resetOf c i free).InterfaceOff) ∧
  (∀ free : Word, State.resetOf Config.reference Inputs.start free = State.reset) ∧ State.reset.hcr = 0x00000000#32

/-- R116 to R123: after every step that leaves both values equal, MaintIRQ is true exactly while En is 1 and one of the
enabled conditions, or another source, holds. That it is a level is D13 (log 15). -/
def Obligations.MaintenanceLevel : Prop :=
  ∀ s s' : State, step s = .next s' → s'.sync = s'.hcr →
    (s'.maintIRQ = true ↔
      Hcr.en (Hcr.eff s'.cfg s'.hcr) = true ∧
      (Hcr.uie (Hcr.eff s'.cfg s'.hcr) = true ∧ (s'.inputs.lrs.filter (fun l => l.valid)).length ≤ 1 ∨
        Hcr.lrenpie (Hcr.eff s'.cfg s'.hcr) = true ∧ Hcr.eoiCount s'.hcr ≠ 0 ∨
        Hcr.npie (Hcr.eff s'.cfg s'.hcr) = true ∧ (∀ l, l ∈ s'.inputs.lrs → l.state ≠ 0b01) ∨
        Hcr.vGrp0EIE (Hcr.eff s'.cfg s'.hcr) = true ∧ s'.inputs.veng0 = true ∨
        Hcr.vGrp0DIE (Hcr.eff s'.cfg s'.hcr) = true ∧ s'.inputs.veng0 = false ∨
        Hcr.vGrp1EIE (Hcr.eff s'.cfg s'.hcr) = true ∧ s'.inputs.veng1 = true ∨
        Hcr.vGrp1DIE (Hcr.eff s'.cfg s'.hcr) = true ∧ s'.inputs.veng1 = false ∨
        s'.inputs.otherMaintSources = true))

/-- R118 under the En of R116 and the level reading D13 (log 15), for the lagging view (R58, D11; log 7) too: while no hardware read can see En or LRENPIE 0, MaintIRQ is true after every step
that leaves EOIcount not 0, whoever wrote it; and where no other condition is enabled and nothing else asserts it, MaintIRQ
is false after every step that leaves EOIcount 0 or LRENPIE 0. -/
def Obligations.CountAssertsMaintenance : Prop :=
  ∀ s s' : State, step s = .next s' →
    (s'.EffIs Hcr.en true → s'.EffIs Hcr.lrenpie true → Hcr.eoiCount s'.hcr ≠ 0 → s'.maintIRQ = true) ∧
    (s'.EffIs Hcr.uie false → s'.EffIs Hcr.npie false → s'.EffIs Hcr.vGrp0EIE false → s'.EffIs Hcr.vGrp0DIE false →
      s'.EffIs Hcr.vGrp1EIE false → s'.EffIs Hcr.vGrp1DIE false → s'.inputs.otherMaintSources = false →
      (Hcr.eoiCount s'.hcr = 0 ∨ s'.EffIs Hcr.lrenpie false) → s'.maintIRQ = false)

/-- R97: after every step that leaves no hardware read able to see En 1, no maintenance interrupt and no virtual interrupt
of either group is signalled. -/
def Obligations.DisabledInterfaceIsSilent : Prop :=
  ∀ s s' : State, step s = .next s' → s'.EffIs Hcr.en false →
    s'.maintIRQ = false ∧ s'.virtualIRQ0 = false ∧ s'.virtualIRQ1 = false

/-- R38, R39: a RES0 bit has no effect, the free values being the same. Of two states that differ in the register and the
synchronised value only, and there only in RES0 bits, every step of one, whatever its event, faults, is refused or completes
as that of the other, and the completed steps agree in everything (the outputs, the functional bits of both values, the
count among them, the result of an IAR read) but the RES0 bits themselves: of the two values, and as an MRC or a read
through the AArch64 name hands them out. -/
def Obligations.ReservedBitsHaveNoEffect : Prop :=
  ∀ (s : State) (h y : Word), Hcr.eff s.cfg h = Hcr.eff s.cfg s.hcr → Hcr.eff s.cfg y = Hcr.eff s.cfg s.sync →
    (∀ f, step s = .fault f ↔ step { s with hcr := h, sync := y } = .fault f) ∧
    (∀ r, step s = .refused r ↔ step { s with hcr := h, sync := y } = .refused r) ∧
    (∀ s₁, step s = .next s₁ → ∃ s₂, step { s with hcr := h, sync := y } = .next s₂ ∧ s₁.SameInEffect s₂ ∧
      (s₂.x = s₁.x ∨
        ∃ f t es, s.events = .instr f :: es ∧ (decode f = .ok (.mrcA32 t) ∨ decode f = .ok (.mrcT32 t)) ∧
          s₁.readReg t = s.hcr ∧ s₂.readReg t = h ∧ ∀ u, u ≠ t → s₂.readReg u = s₁.readReg u) ∧
      (s₂.returned = s₁.returned ∨
        ∃ es, s.events = .a64Read :: es ∧ s₁.returned = some (.a64Read s.hcr) ∧
          s₂.returned = some (.a64Read h)))

/-! ### The whole machine -/

/-- Every step keeps the invariant: the parameters and inputs stay admitted (R42), and ICH_HCR and the synchronised value
keep 0 in every RES0 bit that is no read-back bit (R39, R83). -/
def Obligations.StepKeepsInvariant : Prop :=
  ∀ s s' : State, s.Inv → step s = .next s' → s'.Inv

/-- The invariant holds after reset, of every implementation and inputs that can be. -/
def Obligations.ResetMeetsInvariant : Prop :=
  State.reset.Inv ∧
  ∀ (c : Config) (i : Inputs) (free : Word), Hcr.configAdmitted c = true → i.admitted c = true →
    (State.resetOf c i free).Inv

/-- R47, D27: only an MCR that decodes, a write through the AArch64 name, a counting write and a reset change ICH_HCR. -/
def Obligations.ClosedListOfWriters : Prop :=
  ∀ s s' : State, step s = .next s' → s'.hcr ≠ s.hcr →
    (∃ f t es, s.events = .instr f :: es ∧ (decode f = .ok (.mcrA32 t) ∨ decode f = .ok (.mcrT32 t)) ∧
      s'.hcr = s.readReg t &&& (~~~(Hcr.res0Mask s.cfg) ||| s.cfg.res0Readback)) ∨
    (∃ v es, s.events = .a64Write v :: es ∧ s'.hcr = v &&& (~~~(Hcr.res0Mask s.cfg) ||| s.cfg.res0Readback)) ∨
    (∃ w es, s.events = .virtualEOIRWrite w :: es ∧ ∀ n, n < 27 → s'.hcr.getLsbD n = s.hcr.getLsbD n) ∨
    (∃ w es, s.events = .virtualDIRWrite w :: es ∧ ∀ n, n < 27 → s'.hcr.getLsbD n = s.hcr.getLsbD n) ∨
    (∃ es, s.events = .reset :: es ∧ s'.hcr &&& ~~~(Hcr.res0Mask s.cfg) = 0)

/-- No step changes the parameters; only a change of inputs changes the inputs; only an MRC that decodes and the
environment change a general register; only a reading event changes what was returned. -/
def Obligations.OtherStateWriters : Prop :=
  ∀ s s' : State, step s = .next s' →
    s'.cfg = s.cfg ∧
    (s'.inputs ≠ s.inputs → ∃ i es, s.events = .setInputs i :: es ∧ s'.inputs = i) ∧
    (s'.x ≠ s.x → (∃ f t es, s.events = .instr f :: es ∧ (decode f = .ok (.mrcA32 t) ∨ decode f = .ok (.mrcT32 t))) ∨
      ∃ t v es, s.events = .setReg t v :: es ∧ s'.x = s.x.set t v) ∧
    (s'.returned ≠ s.returned →
      (∃ es, s.events = .a64Read :: es) ∨ ∃ r v es, s.events = .iarRead r v :: es)

/-- R146: a count made between the MRC and the MCR of a read and write back is lost. -/
def Obligations.WriteBackLosesCount : Prop :=
  ∀ (s s₁ s₂ : State) (r w : Instr) (t : RegNum), (r = .mrcA32 t ∨ r = .mrcT32 t) → (w = .mcrA32 t ∨ w = .mcrT32 t) →
    s.Inv → s.cfg.haveEL2 = true → exec r s = .next s₁ → exec w s₁.countEoi = .next s₂ →
    s₂.hcr = s.hcr
end

