-- ==== Sys2Proof/Laws/Decode.lean ====
section
/-! SUPPORT. The two layouts (R68, R69) read back what was written in them, and nothing else has them: the operands of
a word and its condition determine the word. -/

namespace Sys2Proof

/-- The fields of an A32 word made of a condition and operands (R68). -/
theorem encodeA32_fields (cond : BitVec 4) (f : AccessOperands) :
    a32Cond (encodeA32 cond f) = cond ∧ (encodeA32 cond f).extractLsb' 24 4 = 0b1110 ∧
    (encodeA32 cond f).extractLsb' 21 3 = f.opc1 ∧ (encodeA32 cond f).getLsbD 20 = f.isRead ∧
    (encodeA32 cond f).extractLsb' 16 4 = f.crn ∧ (encodeA32 cond f).extractLsb' 12 4 = f.t ∧
    (encodeA32 cond f).extractLsb' 8 4 = f.coproc ∧ (encodeA32 cond f).extractLsb' 5 3 = f.opc2 ∧
    (encodeA32 cond f).getLsbD 4 = true ∧ (encodeA32 cond f).extractLsb' 0 4 = f.crm := by
  unfold a32Cond encodeA32
  refine ⟨?_, ?_, ?_, ?_, ?_, ?_, ?_, ?_, ?_, ?_⟩
  case refine_4 =>
    repeat rw [BitVec.getLsbD_append]
    simp
  case refine_9 =>
    repeat rw [BitVec.getLsbD_append]
    simp
  all_goals
    apply BitVec.eq_of_getLsbD_eq
    intro n hn
    rw [BitVec.getLsbD_extractLsb']
    repeat rw [BitVec.getLsbD_append]
    interval_cases n <;> simp

/-- The fields of the T32 halfwords made of operands (R69). -/
theorem encodeT32_fields (f : AccessOperands) :
    (encodeT32First f).extractLsb' 8 8 = 0b11101110 ∧ (encodeT32First f).extractLsb' 5 3 = f.opc1 ∧
    (encodeT32First f).getLsbD 4 = f.isRead ∧ (encodeT32First f).extractLsb' 0 4 = f.crn ∧
    (encodeT32Second f).extractLsb' 12 4 = f.t ∧ (encodeT32Second f).extractLsb' 8 4 = f.coproc ∧
    (encodeT32Second f).extractLsb' 5 3 = f.opc2 ∧ (encodeT32Second f).getLsbD 4 = true ∧
    (encodeT32Second f).extractLsb' 0 4 = f.crm := by
  unfold encodeT32First encodeT32Second
  refine ⟨?_, ?_, ?_, ?_, ?_, ?_, ?_, ?_, ?_⟩
  case refine_3 =>
    repeat rw [BitVec.getLsbD_append]
    simp
  case refine_8 =>
    repeat rw [BitVec.getLsbD_append]
    simp
  all_goals
    apply BitVec.eq_of_getLsbD_eq
    intro n hn
    rw [BitVec.getLsbD_extractLsb']
    repeat rw [BitVec.getLsbD_append]
    interval_cases n <;> simp

/-- An A32 word gives back the operands it was made of (R68). -/
theorem a32Operands_encodeA32 (cond : BitVec 4) (f : AccessOperands) : a32Operands (encodeA32 cond f) = some f := by
  obtain ⟨_, hk, h1, h2, h3, h4, h5, h6, h7, h8⟩ := encodeA32_fields cond f
  unfold a32Operands
  rw [if_pos ⟨hk, h7⟩, h1, h2, h3, h4, h5, h6, h8]

/-- A pair of T32 halfwords gives back the operands it was made of (R69). -/
theorem t32Operands_encodeT32 (f : AccessOperands) : t32Operands (encodeT32First f) (encodeT32Second f) = some f := by
  obtain ⟨hk, h1, h2, h3, h4, h5, h6, h7, h8⟩ := encodeT32_fields f
  unfold t32Operands
  rw [if_pos ⟨hk, h7⟩, h1, h2, h3, h4, h5, h6, h8]

/-- An A32 word that has operands is made of its condition and of them (R68). -/
theorem encodeA32_of_operands {w : Word} {f : AccessOperands} (h : a32Operands w = some f) :
    encodeA32 (a32Cond w) f = w := by
  unfold a32Operands at h
  split at h
  · rename_i hk
    obtain rfl := Option.some.inj h
    have bit : ∀ n, n < 4 → w.getLsbD (24 + n) = (0b1110 : BitVec 4).getLsbD n := by
      intro n hn
      have := congrArg (fun v => v.getLsbD n) hk.1
      simpa [BitVec.getLsbD_extractLsb', hn] using this
    have b0 := bit 0 (by decide)
    have b1 := bit 1 (by decide)
    have b2 := bit 2 (by decide)
    have b3 := bit 3 (by decide)
    have b4 := hk.2
    apply BitVec.eq_of_getLsbD_eq
    intro n hn
    unfold encodeA32 a32Cond
    repeat rw [BitVec.getLsbD_append]
    interval_cases n <;> simp_all
  · cases h

/-- A pair of T32 halfwords that has operands is made of them (R69). -/
theorem encodeT32_of_operands {a b : Halfword} {f : AccessOperands} (h : t32Operands a b = some f) :
    encodeT32First f = a ∧ encodeT32Second f = b := by
  unfold t32Operands at h
  split at h
  · rename_i hk
    obtain rfl := Option.some.inj h
    have bit : ∀ n, n < 8 → a.getLsbD (8 + n) = (0b11101110 : BitVec 8).getLsbD n := by
      intro n hn
      have := congrArg (fun v => v.getLsbD n) hk.1
      simpa [BitVec.getLsbD_extractLsb', hn] using this
    have b0 := bit 0 (by decide)
    have b1 := bit 1 (by decide)
    have b2 := bit 2 (by decide)
    have b3 := bit 3 (by decide)
    have b4 := bit 4 (by decide)
    have b5 := bit 5 (by decide)
    have b6 := bit 6 (by decide)
    have b7 := bit 7 (by decide)
    have b8 := hk.2
    constructor
    · apply BitVec.eq_of_getLsbD_eq
      intro n hn
      unfold encodeT32First
      repeat rw [BitVec.getLsbD_append]
      interval_cases n <;> simp_all
    · apply BitVec.eq_of_getLsbD_eq
      intro n hn
      unfold encodeT32Second
      repeat rw [BitVec.getLsbD_append]
      interval_cases n <;> simp_all
  · cases h

/-- Operands that select ICH_HCR are those of its read or write with their register number (R67). -/
theorem selectsIchHcr_iff (f : AccessOperands) : f.selectsIchHcr = true ↔ f = .ofIchHcr f.isRead f.t := by
  cases f
  simp [AccessOperands.selectsIchHcr, AccessOperands.ofIchHcr, and_assoc]

end Sys2Proof
end

