-- ==== Sys2Proof/Laws/Fields.lean ====
section
/-! SUPPORT. What the operations on the register's value do, bit by bit. -/

namespace Sys2Proof.Machine

@[simp] theorem Hcr.eoiCount_setEoiCount (v : Word) (c : Count) : Hcr.eoiCount (Hcr.setEoiCount v c) = c := by
  apply BitVec.eq_of_getLsbD_eq
  intro n hn
  simp only [Hcr.eoiCount, Hcr.setEoiCount, BitVec.getLsbD_extractLsb', BitVec.getLsbD_append]
  simp [hn]

/-- Setting the count leaves every bit below 27 as it was. -/
theorem Hcr.setEoiCount_low (v : Word) (c : Count) {n : Nat} (h : n < 27) :
    (Hcr.setEoiCount v c).getLsbD n = v.getLsbD n := by
  unfold Hcr.setEoiCount
  rw [BitVec.getLsbD_append]
  simp [h]

/-- Bits 27 and up of a value are its count. -/
theorem Hcr.eoiCount_bit (v : Word) {n : Nat} (h : n < 5) : (Hcr.eoiCount v).getLsbD n = v.getLsbD (27 + n) := by
  simp [Hcr.eoiCount, h]

/-- An increment leaves every bit below 27 as it was (R94). -/
theorem Hcr.increment_low (free : Count) (v : Word) {n : Nat} (h : n < 27) :
    (Hcr.increment free v).getLsbD n = v.getLsbD n := by
  unfold Hcr.increment
  split <;> exact Hcr.setEoiCount_low _ _ h

/-- An increment adds one to a count below 31 (R94). -/
theorem Hcr.increment_count (free : Count) (v : Word) (h : (Hcr.eoiCount v).toNat < 31) :
    Hcr.eoiCount (Hcr.increment free v) = Hcr.eoiCount v + 1 := by
  simp [Hcr.increment, h]

/-- Two values with the same count and the same bits below 27 are equal. -/
theorem Hcr.eq_of_parts (v w : Word) (hc : Hcr.eoiCount v = Hcr.eoiCount w)
    (hl : ∀ n, n < 27 → v.getLsbD n = w.getLsbD n) : v = w := by
  apply BitVec.eq_of_getLsbD_eq
  intro n hn
  by_cases h : n < 27
  · exact hl n h
  · have e : n = 27 + (n - 27) := by omega
    have hb : n - 27 < 5 := by omega
    rw [e, ← Hcr.eoiCount_bit v hb, ← Hcr.eoiCount_bit w hb, hc]

@[simp] theorem Hcr.hardwareView_same (v choice : Word) : Hcr.hardwareView v v choice = v := by
  simp [Hcr.hardwareView]

/-- Bit n of a hardware read, before the shortcut for equal values (R58). -/
theorem Hcr.hardwareView_eq (a b m : Word) :
    Hcr.hardwareView a b m = (a &&& (m ||| Hcr.countMask)) ||| (b &&& ~~~(m ||| Hcr.countMask)) := by
  unfold Hcr.hardwareView
  split
  · rename_i h
    subst h
    rw [← BitVec.and_or_distrib_left, BitVec.or_not_self, BitVec.and_allOnes]
  · rfl

/-- A hardware read takes each bit from the current or from the synchronised value (R58). -/
theorem Hcr.hardwareView_bit (a b m : Word) (n : Nat) :
    (Hcr.hardwareView a b m).getLsbD n = a.getLsbD n ∨ (Hcr.hardwareView a b m).getLsbD n = b.getLsbD n := by
  by_cases hn : n < 32
  · rw [Hcr.hardwareView_eq]
    simp only [BitVec.getLsbD_or, BitVec.getLsbD_and, BitVec.getLsbD_not, hn, decide_true, Bool.true_and]
    cases (m.getLsbD n || Hcr.countMask.getLsbD n) <;> simp
  · left
    rw [BitVec.getLsbD_of_ge _ _ (by omega), BitVec.getLsbD_of_ge _ _ (by omega)]

/-- Where both values have the same bit, a hardware read has it. -/
theorem Hcr.hardwareView_agree (a b m : Word) {n : Nat} {v : Bool} (ha : a.getLsbD n = v) (hb : b.getLsbD n = v) :
    (Hcr.hardwareView a b m).getLsbD n = v := by
  rcases Hcr.hardwareView_bit a b m n with h | h
  · rw [h, ha]
  · rw [h, hb]

/-- Bit n of the effective value is the stored bit where it is not RES0 (R38). -/
theorem Hcr.eff_bit (c : Config) (v : Word) {n : Nat} (hn : n < 32) :
    (Hcr.eff c v).getLsbD n = (v.getLsbD n && !(Hcr.res0Mask c).getLsbD n) := by
  simp [Hcr.eff, hn]

/-- Where the effective bit is the same in both values, it is in a hardware read. -/
theorem Hcr.eff_hardwareView_agree (c : Config) (a b m : Word) {n : Nat} {v : Bool} (hn : n < 32)
    (ha : (Hcr.eff c a).getLsbD n = v) (hb : (Hcr.eff c b).getLsbD n = v) :
    (Hcr.eff c (Hcr.hardwareView a b m)).getLsbD n = v := by
  rw [Hcr.eff_bit c _ hn] at *
  rcases Hcr.hardwareView_bit a b m n with h | h
  · rw [h, ha]
  · rw [h, hb]

/-- A hardware read sees an effective bit only where one of the two values has it. -/
theorem Hcr.eff_hardwareView_or (c : Config) (a b m : Word) {n : Nat} (hn : n < 32)
    (h : (Hcr.eff c (Hcr.hardwareView a b m)).getLsbD n = true) :
    (Hcr.eff c a).getLsbD n = true ∨ (Hcr.eff c b).getLsbD n = true := by
  rw [Hcr.eff_bit c _ hn] at h
  rw [Hcr.eff_bit c _ hn, Hcr.eff_bit c _ hn]
  rcases Hcr.hardwareView_bit a b m n with e | e
  · left; rwa [e] at h
  · right; rwa [e] at h

/-- `reservedClear`, bit by bit. -/
theorem Hcr.reservedClear_iff (c : Config) (v : Word) :
    Hcr.reservedClear c v = true ↔
      ∀ n, n < 32 → (Hcr.res0Mask c).getLsbD n = true → c.res0Readback.getLsbD n = false → v.getLsbD n = false := by
  unfold Hcr.reservedClear
  rw [beq_iff_eq]
  constructor
  · intro h n hn hm hr
    have := congrArg (fun w => w.getLsbD n) h
    simp only [BitVec.getLsbD_and, BitVec.getLsbD_not, hn, hm, hr] at this
    simpa using this
  · intro h
    apply BitVec.eq_of_getLsbD_eq
    intro n hn
    have := h n hn
    simp only [BitVec.getLsbD_and, BitVec.getLsbD_not, hn, decide_true, Bool.true_and]
    cases hm : (Hcr.res0Mask c).getLsbD n <;> cases hr : c.res0Readback.getLsbD n <;> simp_all

/-- What a write stores has the reserved bits clear (R39, R82). -/
theorem Hcr.writeValue_reservedClear (c : Config) (v : Word) : Hcr.reservedClear c (Hcr.writeValue c v) = true := by
  rw [Hcr.reservedClear_iff]
  intro n hn hm hr
  simp only [Hcr.writeValue, BitVec.getLsbD_and, BitVec.getLsbD_or, BitVec.getLsbD_not, hm, hr]
  simp

/-- What a reset stores has the reserved bits clear (R140, R141). -/
theorem Hcr.resetValue_reservedClear (c : Config) (free : Word) :
    Hcr.reservedClear c (Hcr.resetValue c free) = true := by
  rw [Hcr.reservedClear_iff]
  intro n hn hm hr
  simp [Hcr.resetValue, hr]

/-- What a reset stores has every functional bit 0 (R46, R140). -/
@[simp] theorem Hcr.eff_resetValue (c : Config) (free : Word) : Hcr.eff c (Hcr.resetValue c free) = 0 := by
  apply BitVec.eq_of_getLsbD_eq
  intro n hn
  rw [Hcr.eff_bit c _ hn]
  simp only [Hcr.resetValue, BitVec.getLsbD_and]
  cases (Hcr.res0Mask c).getLsbD n <;> simp

/-- With EL2 implemented no bit of EOIcount is RES0 (R38). -/
theorem Hcr.res0Mask_count (c : Config) (h : c.haveEL2 = true) {n : Nat} (hl : 27 ≤ n) (hn : n < 32) :
    (Hcr.res0Mask c).getLsbD n = false := by
  unfold Hcr.res0Mask
  rw [if_pos h]
  have hc : ∀ m : Fin 5, ∀ a b d : Bool,
      (0x07FF8200#32 ||| (if a then 0 else 0x00004000#32) ||| (if b then 0 else 0x00002000#32)
        ||| (if d then 0 else 0x00000100#32)).getLsbD (27 + m.val) = false := by decide
  have := hc ⟨n - 27, by omega⟩ c.tdirSupported c.seis c.featGICv4p1
  simpa [show 27 + (n - 27) = n by omega] using this

/-- An increment keeps the reserved bits clear where it can happen (R38, R101). -/
theorem Hcr.increment_reservedClear (c : Config) (h : c.haveEL2 = true) (free : Count) (v : Word)
    (hv : Hcr.reservedClear c v = true) : Hcr.reservedClear c (Hcr.increment free v) = true := by
  rw [Hcr.reservedClear_iff] at *
  intro n hn hm hr
  by_cases hl : n < 27
  · rw [Hcr.increment_low free v hl]
    exact hv n hn hm hr
  · rw [Hcr.res0Mask_count c h (by omega) hn] at hm
    exact absurd hm (by simp)

/-- A hardware read of values that differ in RES0 bits only sees the same functional bits (R38, R58). -/
theorem Hcr.eff_hardwareView_congr (c : Config) {a b a' b' : Word} (m : Word) (ha : Hcr.eff c a' = Hcr.eff c a)
    (hb : Hcr.eff c b' = Hcr.eff c b) : Hcr.eff c (Hcr.hardwareView a' b' m) = Hcr.eff c (Hcr.hardwareView a b m) := by
  rw [Hcr.hardwareView_eq, Hcr.hardwareView_eq]
  apply BitVec.eq_of_getLsbD_eq
  intro n hn
  have ha := congrArg (fun w => w.getLsbD n) ha
  have hb := congrArg (fun w => w.getLsbD n) hb
  simp only [Hcr.eff_bit _ _ hn, BitVec.getLsbD_or, BitVec.getLsbD_and, BitVec.getLsbD_not, hn] at *
  cases h : (Hcr.res0Mask c).getLsbD n <;> simp only [h] at ha hb ⊢ <;> simp_all

/-- With EL2 implemented, values that differ in RES0 bits only have the same count (R38). -/
theorem Hcr.eoiCount_congr (c : Config) (h2 : c.haveEL2 = true) {a a' : Word} (ha : Hcr.eff c a' = Hcr.eff c a) :
    Hcr.eoiCount a' = Hcr.eoiCount a := by
  apply BitVec.eq_of_getLsbD_eq
  intro n hn
  have ha := congrArg (fun w => w.getLsbD (27 + n)) ha
  simp only [Hcr.eff_bit c _ (show 27 + n < 32 by omega),
    Hcr.res0Mask_count c h2 (show 27 ≤ 27 + n by omega) (by omega)] at ha
  rw [Hcr.eoiCount_bit _ hn, Hcr.eoiCount_bit _ hn]
  simpa using ha

/-- With EL2 implemented, increments of values that differ in RES0 bits only differ in RES0 bits only (R38, R94). -/
theorem Hcr.eff_increment_congr (c : Config) (h2 : c.haveEL2 = true) (free : Count) {a a' : Word}
    (ha : Hcr.eff c a' = Hcr.eff c a) : Hcr.eff c (Hcr.increment free a') = Hcr.eff c (Hcr.increment free a) := by
  have hc := Hcr.eoiCount_congr c h2 ha
  have count : Hcr.eoiCount (Hcr.increment free a') = Hcr.eoiCount (Hcr.increment free a) := by
    unfold Hcr.increment
    rw [hc]
    split <;> simp
  apply BitVec.eq_of_getLsbD_eq
  intro n hn
  rw [Hcr.eff_bit c _ hn, Hcr.eff_bit c _ hn]
  by_cases h : n < 27
  · rw [Hcr.increment_low _ _ h, Hcr.increment_low _ _ h, ← Hcr.eff_bit c _ hn, ← Hcr.eff_bit c _ hn, ha]
  · have hb := congrArg (fun w => w.getLsbD (n - 27)) count
    simp only [Hcr.eoiCount_bit _ (show n - 27 < 5 by omega), show 27 + (n - 27) = n by omega] at hb
    rw [hb]

/-- Without EL2 no bit is functional (R5, R38). -/
theorem Hcr.eff_noEL2 (c : Config) (h : c.haveEL2 = false) (v : Word) : Hcr.eff c v = 0 := by
  simp [Hcr.eff, Hcr.res0Mask, h]

end Sys2Proof.Machine
end

