-- ==== Sys2Proof/Laws/State.lean ====
section
/-! SUPPORT. What each update of the state does to each field, so that no proof unfolds a record update. -/

namespace Sys2Proof.Machine

@[simp] theorem State.writeReg_cfg (s : State) (t : RegNum) (v : Word) : (s.writeReg t v).cfg = s.cfg := by unfold State.writeReg; split <;> rfl
@[simp] theorem State.writeReg_hcr (s : State) (t : RegNum) (v : Word) : (s.writeReg t v).hcr = s.hcr := by unfold State.writeReg; split <;> rfl
@[simp] theorem State.writeReg_sync (s : State) (t : RegNum) (v : Word) : (s.writeReg t v).sync = s.sync := by unfold State.writeReg; split <;> rfl
@[simp] theorem State.writeReg_inputs (s : State) (t : RegNum) (v : Word) : (s.writeReg t v).inputs = s.inputs := by unfold State.writeReg; split <;> rfl
@[simp] theorem State.writeReg_events (s : State) (t : RegNum) (v : Word) : (s.writeReg t v).events = s.events := by unfold State.writeReg; split <;> rfl
@[simp] theorem State.writeReg_returned (s : State) (t : RegNum) (v : Word) : (s.writeReg t v).returned = s.returned := by unfold State.writeReg; split <;> rfl
@[simp] theorem State.writeReg_maintIRQ (s : State) (t : RegNum) (v : Word) : (s.writeReg t v).maintIRQ = s.maintIRQ := by unfold State.writeReg; split <;> rfl
@[simp] theorem State.writeReg_virtualIRQ0 (s : State) (t : RegNum) (v : Word) : (s.writeReg t v).virtualIRQ0 = s.virtualIRQ0 := by unfold State.writeReg; split <;> rfl
@[simp] theorem State.writeReg_virtualIRQ1 (s : State) (t : RegNum) (v : Word) : (s.writeReg t v).virtualIRQ1 = s.virtualIRQ1 := by unfold State.writeReg; split <;> rfl
@[simp] theorem State.writeReg_draws (s : State) (t : RegNum) (v : Word) : (s.writeReg t v).draws = s.draws := by unfold State.writeReg; split <;> rfl

@[simp] theorem State.writeHcr_cfg (s : State) (v : Word) : (s.writeHcr v).cfg = s.cfg := rfl
@[simp] theorem State.writeHcr_x (s : State) (v : Word) : (s.writeHcr v).x = s.x := rfl
@[simp] theorem State.writeHcr_hcr (s : State) (v : Word) : (s.writeHcr v).hcr = Hcr.writeValue s.cfg v := rfl
@[simp] theorem State.writeHcr_sync (s : State) (v : Word) : (s.writeHcr v).sync = s.sync := rfl
@[simp] theorem State.writeHcr_inputs (s : State) (v : Word) : (s.writeHcr v).inputs = s.inputs := rfl
@[simp] theorem State.writeHcr_events (s : State) (v : Word) : (s.writeHcr v).events = s.events := rfl
@[simp] theorem State.writeHcr_returned (s : State) (v : Word) : (s.writeHcr v).returned = s.returned := rfl
@[simp] theorem State.writeHcr_maintIRQ (s : State) (v : Word) : (s.writeHcr v).maintIRQ = s.maintIRQ := rfl
@[simp] theorem State.writeHcr_virtualIRQ0 (s : State) (v : Word) : (s.writeHcr v).virtualIRQ0 = s.virtualIRQ0 := rfl
@[simp] theorem State.writeHcr_virtualIRQ1 (s : State) (v : Word) : (s.writeHcr v).virtualIRQ1 = s.virtualIRQ1 := rfl
@[simp] theorem State.writeHcr_draws (s : State) (v : Word) : (s.writeHcr v).draws = s.draws := rfl

@[simp] theorem State.countEoi_cfg (s : State) : (s.countEoi).cfg = s.cfg := rfl
@[simp] theorem State.countEoi_x (s : State) : (s.countEoi).x = s.x := rfl
@[simp] theorem State.countEoi_hcr (s : State) : (s.countEoi).hcr = Hcr.increment (Config.freeCount s.draws) s.hcr := rfl
@[simp] theorem State.countEoi_sync (s : State) : (s.countEoi).sync = Hcr.increment (Config.freeCount s.draws) s.sync := rfl
@[simp] theorem State.countEoi_inputs (s : State) : (s.countEoi).inputs = s.inputs := rfl
@[simp] theorem State.countEoi_events (s : State) : (s.countEoi).events = s.events := rfl
@[simp] theorem State.countEoi_returned (s : State) : (s.countEoi).returned = s.returned := rfl
@[simp] theorem State.countEoi_maintIRQ (s : State) : (s.countEoi).maintIRQ = s.maintIRQ := rfl
@[simp] theorem State.countEoi_virtualIRQ0 (s : State) : (s.countEoi).virtualIRQ0 = s.virtualIRQ0 := rfl
@[simp] theorem State.countEoi_virtualIRQ1 (s : State) : (s.countEoi).virtualIRQ1 = s.virtualIRQ1 := rfl
@[simp] theorem State.countEoi_draws (s : State) : (s.countEoi).draws = s.draws := rfl

@[simp] theorem State.syncHcr_cfg (s : State) : (s.syncHcr).cfg = s.cfg := rfl
@[simp] theorem State.syncHcr_x (s : State) : (s.syncHcr).x = s.x := rfl
@[simp] theorem State.syncHcr_hcr (s : State) : (s.syncHcr).hcr = s.hcr := rfl
@[simp] theorem State.syncHcr_sync (s : State) : (s.syncHcr).sync = s.hcr := rfl
@[simp] theorem State.syncHcr_inputs (s : State) : (s.syncHcr).inputs = s.inputs := rfl
@[simp] theorem State.syncHcr_events (s : State) : (s.syncHcr).events = s.events := rfl
@[simp] theorem State.syncHcr_returned (s : State) : (s.syncHcr).returned = s.returned := rfl
@[simp] theorem State.syncHcr_maintIRQ (s : State) : (s.syncHcr).maintIRQ = s.maintIRQ := rfl
@[simp] theorem State.syncHcr_virtualIRQ0 (s : State) : (s.syncHcr).virtualIRQ0 = s.virtualIRQ0 := rfl
@[simp] theorem State.syncHcr_virtualIRQ1 (s : State) : (s.syncHcr).virtualIRQ1 = s.virtualIRQ1 := rfl
@[simp] theorem State.syncHcr_draws (s : State) : (s.syncHcr).draws = s.draws := rfl

@[simp] theorem State.resetHcr_cfg (s : State) : (s.resetHcr).cfg = s.cfg := rfl
@[simp] theorem State.resetHcr_x (s : State) : (s.resetHcr).x = s.x := rfl
@[simp] theorem State.resetHcr_hcr (s : State) : (s.resetHcr).hcr = Hcr.resetValue s.cfg (Config.freeResetBits s.draws) := rfl
@[simp] theorem State.resetHcr_sync (s : State) : (s.resetHcr).sync = Hcr.resetValue s.cfg (Config.freeResetBits s.draws) := rfl
@[simp] theorem State.resetHcr_inputs (s : State) : (s.resetHcr).inputs = s.inputs := rfl
@[simp] theorem State.resetHcr_events (s : State) : (s.resetHcr).events = s.events := rfl
@[simp] theorem State.resetHcr_returned (s : State) : (s.resetHcr).returned = s.returned := rfl
@[simp] theorem State.resetHcr_maintIRQ (s : State) : (s.resetHcr).maintIRQ = s.maintIRQ := rfl
@[simp] theorem State.resetHcr_virtualIRQ0 (s : State) : (s.resetHcr).virtualIRQ0 = s.virtualIRQ0 := rfl
@[simp] theorem State.resetHcr_virtualIRQ1 (s : State) : (s.resetHcr).virtualIRQ1 = s.virtualIRQ1 := rfl
@[simp] theorem State.resetHcr_draws (s : State) : (s.resetHcr).draws = s.draws := rfl

@[simp] theorem State.settle_cfg (s : State) : (s.settle).cfg = s.cfg := rfl
@[simp] theorem State.settle_x (s : State) : (s.settle).x = s.x := rfl
@[simp] theorem State.settle_hcr (s : State) : (s.settle).hcr = s.hcr := rfl
@[simp] theorem State.settle_sync (s : State) : (s.settle).sync = s.sync := rfl
@[simp] theorem State.settle_inputs (s : State) : (s.settle).inputs = s.inputs := rfl
@[simp] theorem State.settle_events (s : State) : (s.settle).events = s.events := rfl
@[simp] theorem State.settle_returned (s : State) : (s.settle).returned = s.returned := rfl
@[simp] theorem State.settle_maintIRQ (s : State) : (s.settle).maintIRQ = maintLevel (s.seenEff Config.freeMaintView) (Hcr.eoiCount s.hcr) s.inputs := rfl
@[simp] theorem State.settle_virtualIRQ0 (s : State) : (s.settle).virtualIRQ0 = virtualLevel (s.seenEff Config.freeVirtual0View) s.inputs.virtualRequest0 := rfl
@[simp] theorem State.settle_virtualIRQ1 (s : State) : (s.settle).virtualIRQ1 = virtualLevel (s.seenEff Config.freeVirtual1View) s.inputs.virtualRequest1 := rfl
@[simp] theorem State.settle_draws (s : State) : (s.settle).draws = s.draws + 1 := rfl

/-- A register that is one of x[0] to x[14] holds what was written to it. -/
@[simp] theorem State.readReg_writeReg_same (s : State) (t : RegNum) (v : Word) (h : t ≠ 15) :
    (s.writeReg t v).readReg t = v := by
  have ht : t.toNat < 15 := by bv_omega
  simp [State.readReg, State.writeReg, ht]

/-- Writing one register leaves every other as it was. -/
@[simp] theorem State.readReg_writeReg_other (s : State) (t u : RegNum) (v : Word) (h : u ≠ t) :
    (s.writeReg t v).readReg u = s.readReg u := by
  have hne : t.toNat ≠ u.toNat := fun e => h (BitVec.eq_of_toNat_eq e.symm)
  by_cases hu : u.toNat < 15 <;> by_cases ht : t.toNat < 15 <;> simp only [State.writeReg, State.readReg, hu, ht, dite_true, dite_false]
  exact Vector.getElem_set_ne ht hu hne

/-- Writing a register changes nothing but the general registers. -/
theorem State.writeReg_frame (s : State) (t : RegNum) (v : Word) :
    s.writeReg t v = { s with x := (s.writeReg t v).x } := by
  unfold State.writeReg
  split <;> rfl

end Sys2Proof.Machine
end

