-- ==== Sys2Proof/Laws/Ops.lean ====
section
/-! SUPPORT. What each shared operation can do, said once. -/

namespace Sys2Proof.Machine

/-- The access check passes exactly where the access is permitted (R109, R143). -/
theorem accessCheck_none_iff (s : State) : accessCheck s.cfg s.inputs = none ↔ AccessPermitted s := by
  unfold accessCheck
  cases hA : s.cfg.haveAArch32 <;> cases hE : s.inputs.el <;> simp [AccessPermitted, hA, hE]
  split <;> [skip; split] <;> simp

/-- Where the access is permitted a checked operation completes. -/
theorem checked_permitted {s done : State} (h : AccessPermitted s) : checked s done = .next done := by
  simp [checked, (accessCheck_none_iff s).2 h]

/-- A checked operation completes only where the access is permitted, and then as written. -/
theorem checked_next {s done s' : State} (h : checked s done = .next s') : AccessPermitted s ∧ s' = done := by
  unfold checked at h
  split at h
  · cases h
  · rename_i hc
    cases h
    exact ⟨(accessCheck_none_iff s).1 hc, rfl⟩

/-- Whether a checked operation stops, and how, does not depend on what it would do. -/
theorem checked_fault {s done : State} {f : Fault} : checked s done = .fault f ↔ accessCheck s.cfg s.inputs = some f := by
  unfold checked
  split <;> simp_all [raise]

/-- Settling is what a step adds to a next state. -/
@[simp] theorem settled_next (s : State) : settled (.next s) = .next s.settle := rfl
@[simp] theorem settled_fault (f : Fault) : settled (.fault f) = .fault f := rfl
@[simp] theorem settled_refused (r : Refusal) : settled (.refused r) = .refused r := rfl

theorem settled_eq_next {r : Result} {s' : State} : settled r = .next s' ↔ ∃ s, r = .next s ∧ s' = s.settle := by
  cases r <;> simp [settled, eq_comm]

theorem settled_eq_fault {r : Result} {f : Fault} : settled r = .fault f ↔ r = .fault f := by
  cases r <;> simp [settled]

/-- A hardware read with both values equal is immediate (R58). -/
theorem State.seenEff_synced {s : State} (h : s.sync = s.hcr) (view : Nat → Word) :
    s.seenEff view = Hcr.eff s.cfg s.hcr := by
  simp [State.seenEff, h]

/-- An event's hardware read with both values equal is immediate (R58). -/
theorem State.eventEff_synced {s : State} (h : s.sync = s.hcr) : s.eventEff = Hcr.eff s.cfg s.hcr :=
  State.seenEff_synced h _

/-- A hardware read sees an effective bit that is the same in both values (R58). -/
theorem State.seenEff_agree {s : State} {n : Nat} {b : Bool} (hn : n < 32)
    (h : s.EffIs (fun v => v.getLsbD n) b) (view : Nat → Word) : (s.seenEff view).getLsbD n = b :=
  Hcr.eff_hardwareView_agree s.cfg s.hcr s.sync _ hn h.1 h.2

/-- Two states that differ in RES0 bits, general registers and what was returned settle to two such states: a RES0 bit
reaches no output (R38). -/
theorem State.settle_sameInEffect {s s' : State} (hc : s'.cfg = s.cfg) (hh : Hcr.eff s.cfg s'.hcr = Hcr.eff s.cfg s.hcr)
    (hy : Hcr.eff s.cfg s'.sync = Hcr.eff s.cfg s.sync) (hi : s'.inputs = s.inputs) (he : s'.events = s.events)
    (hd : s'.draws = s.draws) : s.settle.SameInEffect s'.settle := by
  have seen : ∀ view, s'.seenEff view = s.seenEff view := by
    intro view
    unfold State.seenEff
    rw [hc, hd]
    exact Hcr.eff_hardwareView_congr s.cfg _ hh hy
  refine ⟨hc, hh, hy, hi, he, ?_, ?_, ?_, congrArg (· + 1) hd⟩
  · rw [State.settle_maintIRQ, State.settle_maintIRQ, seen, hi]
    cases h2 : s.cfg.haveEL2
    · have off : s.seenEff Config.freeMaintView = 0 := Hcr.eff_noEL2 _ h2 _
      simp [off, maintLevel, Hcr.en]
    · rw [Hcr.eoiCount_congr s.cfg h2 hh]
  · rw [State.settle_virtualIRQ0, State.settle_virtualIRQ0, seen, hi]
  · rw [State.settle_virtualIRQ1, State.settle_virtualIRQ1, seen, hi]

/-- With no effective En in either value, the outputs settle to silence (R97). -/
theorem State.settle_silent {s : State} (h : s.InterfaceOff) : s.settle.Silent := by
  have he : ∀ view, Hcr.en (s.seenEff view) = false := State.seenEff_agree (by decide) h
  simp [State.Silent, maintLevel, virtualLevel, he]

/-- Settling changes neither the parameters, the inputs nor the two values, so it keeps the invariant. -/
theorem State.settle_inv {s : State} (h : s.Inv) : s.settle.Inv := ⟨h.config, h.inputs, h.hcr, h.sync⟩

/-- Which trap fields apply: a named cause has its field set in what the read saw, and the access is from Non-secure
EL1 (R115). -/
theorem mem_trapCauses {c : Config} {e : Word} {i : Inputs} {a : RegAccess} {k : TrapCause} :
    k ∈ trapCauses c e i a ↔ (i.isNonSecure = true ∧ i.el = .el1) ∧
      (k = .tc ∧ trapsTC e a = true ∨ k = .tall0 ∧ trapsTALL0 e a = true ∨ k = .tall1 ∧ trapsTALL1 e a = true
        ∨ k = .tdir ∧ trapsTDIR c e a = true) := by
  unfold trapCauses
  split
  · rename_i h
    simp only [Bool.and_eq_true, beq_iff_eq] at h
    cases trapsTC e a <;> cases trapsTALL0 e a <;> cases trapsTALL1 e a <;> cases trapsTDIR c e a <;> simp [h]
  · rename_i h
    simp only [Bool.and_eq_true, beq_iff_eq] at h
    simp [h]

/-- A picked cause is one of the list. -/
theorem pickCause_mem {l : List TrapCause} {n : Nat} {k : TrapCause} (h : pickCause l n = some k) : k ∈ l :=
  List.mem_of_getElem? h

/-- A cause is picked whenever there is one. -/
theorem pickCause_some {l : List TrapCause} (n : Nat) (h : l ≠ []) : ∃ k, pickCause l n = some k := by
  have hl : n % l.length < l.length := Nat.mod_lt _ (List.length_pos_iff.2 h)
  exact ⟨l[n % l.length], by simp [pickCause, hl]⟩

@[simp] theorem pickCause_nil (n : Nat) : pickCause [] n = none := rfl

end Sys2Proof.Machine
end

