-- ==== Sys2Proof/Laws/PerInstr.lean ====
section
/-! SUPPORT. A fact about every instruction as syntax, one lemma per constructor: the number spec/opcode_table.json
gives its row. -/

namespace Sys2Proof.Laws.TableRow

/-- The mask of all four rows of spec/opcode_table.json. -/
def mask : Word := 0xFFFF0FFF#32

/-- The match of an instruction's row. -/
def pattern : Instr → Word
  | .mrcA32 _ => 0xEE9C0F1B#32
  | .mcrA32 _ => 0xEE8C0F1B#32
  | .mrcT32 _ => 0xEE9C0F1B#32
  | .mcrT32 _ => 0xEE8C0F1B#32

/-- The instruction's number has its row's match under the mask, and its register number in bits [15:12]. -/
def Statement (i : Instr) : Prop := i.tableWord &&& mask = pattern i ∧ i.tableWord.extractLsb' 12 4 = i.rt

theorem mrcA32 (t : RegNum) : Statement (.mrcA32 t) := by unfold Statement; revert t; decide

theorem mcrA32 (t : RegNum) : Statement (.mcrA32 t) := by unfold Statement; revert t; decide

theorem mrcT32 (t : RegNum) : Statement (.mrcT32 t) := by unfold Statement; revert t; decide

theorem mcrT32 (t : RegNum) : Statement (.mcrT32 t) := by unfold Statement; revert t; decide

end Sys2Proof.Laws.TableRow
end

