-- ==== Sys2Proof/Laws/Step.lean ====
section
/-! SUPPORT. What an instruction, an event and a step can do: one inversion lemma for each. -/

namespace Sys2Proof.Machine

@[simp] theorem rtAdmittedA32_iff (t : RegNum) : rtAdmittedA32 t = true ↔ t ≠ 15 := by
  simp only [rtAdmittedA32, bne_iff_ne]

@[simp] theorem rtAdmittedT32_iff (t : RegNum) : rtAdmittedT32 t = true ↔ t ≠ 15 ∧ t ≠ 13 := by
  simp only [rtAdmittedT32, Bool.and_eq_true, bne_iff_ne]

/-- An instruction that answers a next state was permitted, and wrote its register or the ICH_HCR value (R80, R81). -/
theorem exec_next {i : Instr} {s s' : State} (h : exec i s = .next s') :
    AccessPermitted s ∧ i.wellFormed = true ∧
      ((∃ t, (i = .mrcA32 t ∨ i = .mrcT32 t) ∧ t ≠ 15 ∧ s' = s.writeReg t s.hcr) ∨
       (∃ t, (i = .mcrA32 t ∨ i = .mcrT32 t) ∧ t ≠ 15 ∧ s' = s.writeHcr (s.readReg t))) := by
  have a32 : ∀ {t : RegNum}, rtAdmittedA32 t = true → t ≠ 15 := fun ht => (rtAdmittedA32_iff _).1 ht
  have t32 : ∀ {t : RegNum}, rtAdmittedT32 t = true → t ≠ 15 := fun ht => ((rtAdmittedT32_iff _).1 ht).1
  cases i with
  | mrcA32 t =>
    simp only [exec, execMrcA32, readIchHcr, Hcr.readValue] at h
    split at h
    · rename_i ht
      obtain ⟨hp, rfl⟩ := checked_next h
      exact ⟨hp, ht, .inl ⟨t, .inl rfl, a32 ht, rfl⟩⟩
    · cases h
  | mcrA32 t =>
    simp only [exec, execMcrA32, writeIchHcr] at h
    split at h
    · rename_i ht
      obtain ⟨hp, rfl⟩ := checked_next h
      exact ⟨hp, ht, .inr ⟨t, .inl rfl, a32 ht, rfl⟩⟩
    · cases h
  | mrcT32 t =>
    simp only [exec, execMrcT32, readIchHcr, Hcr.readValue] at h
    split at h
    · rename_i ht
      obtain ⟨hp, rfl⟩ := checked_next h
      exact ⟨hp, ht, .inl ⟨t, .inr rfl, t32 ht, rfl⟩⟩
    · cases h
  | mcrT32 t =>
    simp only [exec, execMcrT32, writeIchHcr] at h
    split at h
    · rename_i ht
      obtain ⟨hp, rfl⟩ := checked_next h
      exact ⟨hp, ht, .inr ⟨t, .inr rfl, t32 ht, rfl⟩⟩
    · cases h

/-- A well-formed instruction raises exactly what the access check decides (R109). -/
theorem exec_fault {i : Instr} {s : State} (hi : i.wellFormed = true) {f : Fault} :
    exec i s = .fault f ↔ accessCheck s.cfg s.inputs = some f := by
  cases i <;> simp only [Instr.wellFormed] at hi <;>
    simp only [exec, execMrcA32, execMcrA32, execMrcT32, execMcrT32, hi, if_true, readIchHcr, writeIchHcr, checked_fault]

/-- An EOIR write counts or leaves the state as it was (R90, R92). -/
theorem State.virtualEOIRWrite_cases (s : State) (w : EoirWrite) :
    s.virtualEOIRWrite w = s ∨ s.virtualEOIRWrite w = s.countEoi := by
  unfold State.virtualEOIRWrite
  split
  · split
    · exact .inl rfl
    · split
      · exact .inr rfl
      · split
        · exact .inr rfl
        · exact .inl rfl
  · exact .inl rfl

/-- A DIR write counts or leaves the state as it was (R91). -/
theorem State.virtualDIRWrite_cases (s : State) (w : DirWrite) :
    s.virtualDIRWrite w = s ∨ s.virtualDIRWrite w = s.countEoi := by
  unfold State.virtualDIRWrite
  split
  · split
    · exact .inl rfl
    · exact .inr rfl
  · exact .inl rfl

/-- An access to another register that is not stopped leaves the state as it was (R115). -/
theorem el1SysRegAccess_next {s s' : State} {a : RegAccess} (h : el1SysRegAccess s a = .next s') : s' = s := by
  unfold el1SysRegAccess at h
  split at h
  · cases h
  · split at h <;> cases h
  · cases h
  · cases h; rfl

theorem needsEL2_next {s done s' : State} (h : needsEL2 s done = .next s') : s.cfg.haveEL2 = true ∧ s' = done := by
  unfold needsEL2 at h
  split at h
  · rename_i hc
    cases h
    exact ⟨hc, rfl⟩
  · cases h

/-- Everything an event that answers a next state can have done. -/
theorem runEvent_next {e : Event} {s s' : State} (h : runEvent e s = .next s') :
    (∃ f i, e = .instr f ∧ decode f = .ok i ∧ exec i s = .next s') ∨
    (∃ v, e = .a64Write v ∧ s' = s.writeHcr v) ∨
    (e = .a64Read ∧ s' = { s with returned := some (.a64Read s.hcr) }) ∨
    (∃ w, e = .virtualEOIRWrite w ∧ s.cfg.haveEL2 = true ∧ s' = s.virtualEOIRWrite w) ∨
    (∃ w, e = .virtualDIRWrite w ∧ s.cfg.haveEL2 = true ∧ s' = s.virtualDIRWrite w) ∨
    (∃ r v, e = .iarRead r v ∧ s.cfg.haveEL2 = true ∧ s' = s.iarRead r v) ∨
    (∃ a, e = .el1SysRegAccess a ∧ s' = s) ∨
    (e = .localSEI ∧ s' = s) ∨
    (e = .contextSync ∧ s' = s.syncHcr) ∨
    (e = .reset ∧ s' = s.resetHcr) ∨
    (∃ i, e = .setInputs i ∧ i.admitted s.cfg = true ∧ s' = { s with inputs := i }) ∨
    (∃ t v, e = .setReg t v ∧ s' = { s with x := s.x.set t v }) := by
  cases e with
  | instr f =>
    left
    simp only [runEvent] at h
    split at h
    · rename_i i hd
      exact ⟨f, i, rfl, hd, h⟩
    · cases h
  | a64Write v => simp only [runEvent] at h; cases h; simp
  | a64Read => simp only [runEvent] at h; cases h; simp [Hcr.readValue]
  | virtualEOIRWrite w => obtain ⟨hc, rfl⟩ := needsEL2_next h; simp [hc]
  | virtualDIRWrite w => obtain ⟨hc, rfl⟩ := needsEL2_next h; simp [hc]
  | iarRead r v => obtain ⟨hc, rfl⟩ := needsEL2_next h; simp [hc]
  | el1SysRegAccess a =>
    simp only [runEvent] at h
    split at h
    · simp [el1SysRegAccess_next h]
    · cases h
  | localSEI =>
    simp only [runEvent, localSEI] at h
    split at h
    · cases h
    · cases h; simp
  | contextSync => simp only [runEvent] at h; cases h; simp
  | reset => simp only [runEvent] at h; cases h; simp
  | setInputs i =>
    simp only [runEvent] at h
    split at h
    · rename_i hi
      cases h
      simp [hi]
    · cases h
  | setReg t v => simp only [runEvent] at h; cases h; simp

/-- A step that answers a next state is one event, settled, or with no event only the settling. -/
theorem step_next {s s' : State} (h : step s = .next s') :
    ∃ m, s' = m.settle ∧
      (s.events = [] ∧ m = s ∨ ∃ e es, s.events = e :: es ∧ runEvent e { s with events := es } = .next m) := by
  unfold step advance at h
  split at h
  · rename_i he
    cases h
    exact ⟨s, rfl, .inl ⟨he, rfl⟩⟩
  · rename_i e es he
    obtain ⟨m, hm, rfl⟩ := settled_eq_next.1 h
    exact ⟨m, rfl, .inr ⟨e, es, he, hm⟩⟩

/-- A step runs the first event on the state without it. -/
theorem step_of_events {s : State} {e : Event} {es : List Event} (h : s.events = e :: es) :
    step s = settled (runEvent e { s with events := es }) := by
  unfold step advance
  rw [h]

end Sys2Proof.Machine
end

