-- ==== Sys2Proof/Tests/Slice0.lean ====
section
/-! SUPPORT. Tests. Expected results are the vectors of 95_test_vectors.md (VA, VE, VM, VT, VG, VZ, P, and the tables of
sections 2.1, 2.2 and 2.4), never the model's own answers. The `witness_` theorems show that the hypotheses of each
statement of Certificates/Slice0/Obligations.lean can be met together. -/

namespace Sys2Proof.Tests

open Sys2Proof.Machine

/-! ### Helpers -/

/-- The parameters of 95_test_vectors.md; SPURIOUS_ID is a number of no meaning. -/
def cfg : Config where
  haveAArch32 := true
  haveEL2 := true
  tdirSupported := true
  seis := true
  featGICv4p1 := true
  tdirTrapsIccDir := false
  numLrs := 4
  res0Readback := 0
  spuriousId := 77

/-- The minimal implementation of program P4. -/
def cfgMin : Config := { cfg with tdirSupported := false, seis := false, featGICv4p1 := false }

/-- An implementation without EL2 (program P5), bit 9 storage. -/
def cfgNoEL2 : Config := { cfg with haveEL2 := false, res0Readback := 0x00000200 }

/-- A state at EL2 with ICC_HSRE.SRE 1, both values of the register `h`, and the given events. -/
def st (h : Word) (es : List Event) : State :=
  { State.resetOf cfg Inputs.start 0 with hcr := h, sync := h, events := es }

/-- The same at Non-secure EL1. -/
def guest (h : Word) (es : List Event) : State :=
  { st h es with inputs := { Inputs.start with el := .el1, isNonSecure := true } }

/-- EOI mode one. -/
def modeOne (h : Word) (es : List Event) : State := { st h es with inputs := { Inputs.start with eoiMode := true } }

/-- A valid EOIR write of `id` that finds no List register, clears a bit, and is not an SGI. -/
def eoir (id : Nat) : EoirWrite where
  id := id
  idValid := true
  lrFound := false
  clearsAPBit := true
  isVirtualSGI := false

/-- A valid DIR write of `id` that finds no List register and is not an SGI. -/
def dir (id : Nat) : DirWrite where
  id := id
  idValid := true
  lrFound := false
  isVirtualSGI := false

/-- An access that no other mechanism traps. -/
def acc (r : ICReg) (isWrite : Bool) : RegAccess where
  reg := r
  isWrite := isWrite
  isGroup0Reg := false
  isGroup1Reg := false
  otherTrap := none

/-- The register after a step that answers a next state. -/
def hcrAfter (r : Result) : Option Word :=
  match r with
  | .next s => some s.hcr
  | .fault _ => none
  | .refused _ => none

/-- The fault a step ends in. -/
def faultOf (r : Result) : Option Fault :=
  match r with
  | .next _ => none
  | .fault f => some f
  | .refused _ => none

/-- The refusal a step ends in. -/
def refusalOf (r : Result) : Option Refusal :=
  match r with
  | .next _ => none
  | .fault _ => none
  | .refused e => some e

/-- x[t] after a step that answers a next state. -/
def regAfter (t : RegNum) (r : Result) : Option Word :=
  match r with
  | .next s => some (s.readReg t)
  | .fault _ => none
  | .refused _ => none

/-! ### WellFormed -/

/-- R40: the register numbers each form refuses. -/
theorem test_ill_formed_refused :
    Instr.wellFormed (.mrcA32 15) = false ∧ Instr.wellFormed (.mcrA32 15) = false ∧
    Instr.wellFormed (.mrcT32 15) = false ∧ Instr.wellFormed (.mcrT32 15) = false ∧
    Instr.wellFormed (.mrcT32 13) = false ∧ Instr.wellFormed (.mcrT32 13) = false := by decide

theorem test_well_formed :
    Instr.wellFormed (.mrcA32 13) = true ∧ Instr.wellFormed (.mcrA32 14) = true ∧
    Instr.wellFormed (.mrcT32 14) = true ∧ Instr.wellFormed (.mcrT32 12) = true := by decide

/-! ### Decoding (section 2.4; R68 and R69 written out bit by bit) -/

/-- cond 1110, 1110, opc1 100, L 1, CRn 1100, Rt 0011, coproc 1111, opc2 000, 1, CRm 1011. -/
theorem test_decode_mrcA32 : decode (.a32 0b11101110100111000011111100011011#32) = .ok (.mrcA32 3) := by decide

/-- cond 1110, 1110, opc1 100, L 0, CRn 1100, Rt 1110, coproc 1111, opc2 000, 1, CRm 1011. -/
theorem test_decode_mcrA32 : decode (.a32 0b11101110100011001110111100011011#32) = .ok (.mcrA32 14) := by decide

/-- 11101110, opc1 100, L 1, CRn 1100; then Rt 0001, coproc 1111, opc2 000, 1, CRm 1011. -/
theorem test_decode_mrcT32 :
    decode (.t32 0b1110111010011100#16 0b0001111100011011#16 false) = .ok (.mrcT32 1) := by decide

/-- 11101110, opc1 100, L 0, CRn 1100; then Rt 0010, coproc 1111, opc2 000, 1, CRm 1011. -/
theorem test_decode_mcrT32 :
    decode (.t32 0b1110111010001100#16 0b0010111100011011#16 false) = .ok (.mcrT32 2) := by decide

/-- The host's numbering of the table's rows, with t = 0 and t = 14, and a refused word. -/
theorem test_decode_table :
    decodeTableWord 32 0xEE9C0F1B = some (.mrcA32 0) ∧ decodeTableWord 32 0xEE8CEF1B = some (.mcrA32 14) ∧
    decodeTableWord 32 0x0E9C0F1B = none := by decide

/-- R71. -/
theorem test_spelling : Instr.spelling (.mrcA32 3) = "MRC p15, 4, r3, c12, c11, 0" := by decide

/-! ### The instructions -/

/-- R80's worked example, at the level of the word 0xEE9C3F1B. -/
theorem test_mrcA32 : regAfter 3 (step (State.withFetchWord (st 0x28000005 []) 32 0xEE9C3F1B)) = some 0x28000005 := by
  decide

/-- R81's worked example: x[0] = 0xFFFFFFFF, the word 0xEE8C0F1B. -/
theorem test_mcrA32 :
    hcrAfter (step (State.withFetchWord ((st 0 []).writeReg 0 0xFFFFFFFF) 32 0xEE8C0F1B)) = some 0xF8007DFF := by
  decide

/-- P5 step 3 with bit 9 storage: without EL2 a read at EL3 sees read-back bits only. -/
theorem test_mrcT32 :
    regAfter 1 (exec (.mrcT32 1) { State.resetOf cfgNoEL2 { Inputs.start with el := .el3, msreSre := true } 0 with
      hcr := 0x00000200 }) = some 0x00000200 := by decide

/-- P4 step 1: all ones on the minimal implementation. -/
theorem test_mcrT32 :
    hcrAfter (exec (.mcrT32 0) ({ st 0 [] with cfg := cfgMin }.writeReg 0 0xFFFFFFFF)) = some 0xF8001CFF := by decide

/-- The host's question: the first instruction after reset is run. -/
theorem test_first_instruction :
    regAfter 0 (step (State.reset.withFetchWord 32 0xEE9C0F1B)) = some 0 ∧
    hcrAfter (step (State.reset.withFetchWord 32 0xEE8C0F1B)) = some 0 := by decide

/-- VA1, VA3, VA10 and VA12 are Undefined; VA5 and VA9 are the two traps. -/
theorem test_access_check :
    accessCheck { cfg with haveAArch32 := false } Inputs.start = some .undefined ∧
    accessCheck cfg { Inputs.start with el := .el0, el2Enabled := true, el2UsesAArch32 := true, hstrT12 := true }
      = some .undefined ∧
    accessCheck cfg { Inputs.start with hsreSre := false, msreSre := true } = some .undefined ∧
    accessCheck cfg { Inputs.start with el := .el3, hsreSre := true, msreSre := false } = some .undefined ∧
    accessCheck cfg { Inputs.start with el := .el1, el2Enabled := true, hstrEl2T12 := true }
      = some (.a64SystemAccessTrap .el2 3) ∧
    accessCheck cfg { Inputs.start with el := .el1, el2Enabled := true, el2UsesAArch32 := true, hstrEl2T12 := true, hstrT12 := true }
      = some (.hypTrap 3) := by decide

/-- VA6, VA8 and VA4: Undefined at EL1; VA11 and VA13: permitted. -/
theorem test_access_check_rest :
    accessCheck cfg { Inputs.start with el := .el1, el2Enabled := true, hstrT12 := true } = some .undefined ∧
    accessCheck cfg { Inputs.start with el := .el1, el2Enabled := true, el2UsesAArch32 := true, hstrEl2T12 := true }
      = some .undefined ∧
    accessCheck cfg { Inputs.start with el := .el1, hstrEl2T12 := true, hstrT12 := true } = some .undefined ∧
    accessCheck cfg { Inputs.start with hstrEl2T12 := true, hstrT12 := true, msreSre := false } = none ∧
    accessCheck cfg { Inputs.start with el := .el3, hsreSre := false, msreSre := true } = none := by decide

/-! ### The register's value (sections 2.1 and 2.2) -/

theorem test_fields :
    Hcr.eoiCount 0xA5A5A5A5 = 20 ∧ Hcr.tsei 0xA5A5A5A5 = true ∧ Hcr.tdir 0xA5A5A5A5 = false ∧
    Hcr.tc 0xA5A5A5A5 = true ∧ Hcr.vSGIEOICount 0xA5A5A5A5 = true ∧ Hcr.lrenpie 0xA5A5A5A5 = true ∧
    Hcr.eoiCount 0x5A5A5A5A = 11 ∧ Hcr.tdir 0x5A5A5A5A = true ∧ Hcr.tall1 0x5A5A5A5A = true ∧
    Hcr.tall0 0x5A5A5A5A = true ∧ Hcr.vGrp1EIE 0x5A5A5A5A = true ∧ Hcr.npie 0x5A5A5A5A = true ∧
    Hcr.uie 0x5A5A5A5A = true ∧ Hcr.en 0x5A5A5A5A = false := by decide

theorem test_res0_mask :
    Hcr.res0Mask cfg = 0x07FF8200 ∧ Hcr.res0Mask { cfg with tdirSupported := false } = 0x07FFC200 ∧
    Hcr.res0Mask { cfg with seis := false } = 0x07FFA200 ∧ Hcr.res0Mask { cfg with featGICv4p1 := false } = 0x07FF8300 ∧
    Hcr.res0Mask cfgMin = 0x07FFE300 ∧ Hcr.res0Mask cfgNoEL2 = 0xFFFFFFFF := by decide

theorem test_write_value :
    Hcr.writeValue { cfgMin with res0Readback := 0x00000200 } 0xFFFFFFFF = 0xF8001EFF ∧
    Hcr.writeValue { cfg with res0Readback := 0x07FF8200 } 0xFFFFFFFF = 0xFFFFFFFF ∧
    Hcr.eff { cfg with res0Readback := 0x07FF8200 } 0xFFFFFFFF = 0xF8007DFF ∧
    Hcr.writeValue cfg 0xA5A5A5A5 = 0xA00025A5 ∧ Hcr.writeValue cfg 0x5A5A5A5A = 0x5800585A ∧
    Hcr.writeValue cfgMin 0xA5A5A5A5 = 0xA00004A5 := by decide

/-! ### Counting (section 2.5) -/

/-- VE1, VE5, VE6, VE7, VE4, VE3. -/
theorem test_eoir :
    hcrAfter (step (st 0 [.virtualEOIRWrite (eoir 40)])) = some 0x08000000 ∧
    hcrAfter (step (st 0 [.virtualEOIRWrite (eoir 8191)])) = some 0x08000000 ∧
    hcrAfter (step (st 0 [.virtualEOIRWrite (eoir 8192)])) = some 0 ∧
    hcrAfter (step (st 0 [.virtualEOIRWrite { eoir 40 with idValid := false }])) = some 0 ∧
    hcrAfter (step (st 0 [.virtualEOIRWrite { eoir 40 with lrFound := true }])) = some 0 ∧
    hcrAfter (step (modeOne 0 [.virtualEOIRWrite (eoir 40)])) = some 0 := by decide

/-- VE8, VE9, VE10, VE18, VE14. -/
theorem test_dir :
    hcrAfter (step (modeOne 0 [.virtualDIRWrite (dir 40)])) = some 0x08000000 ∧
    hcrAfter (step (st 0 [.virtualDIRWrite (dir 40)])) = some 0 ∧
    hcrAfter (step (modeOne 0 [.virtualDIRWrite { dir 40 with lrFound := true }])) = some 0 ∧
    hcrAfter (step (modeOne 0xF0000001 [.virtualDIRWrite (dir 100)])) = some 0xF8000001 ∧
    hcrAfter (step (modeOne 0x00000100 [.virtualDIRWrite { dir 3 with isVirtualSGI := true }])) = some 0x00000100 := by
  decide

/-- VE11, VE12, VE13, VE15, VE16, VE17, VE19. -/
theorem test_sgi_gate :
    hcrAfter (step (st 0x00000100 [.virtualEOIRWrite { eoir 3 with isVirtualSGI := true }])) = some 0x00000100 ∧
    hcrAfter (step (st 0x00000100 [.virtualEOIRWrite (eoir 40)])) = some 0x08000100 ∧
    hcrAfter (step (st 0 [.virtualEOIRWrite { eoir 3 with isVirtualSGI := true }])) = some 0x08000000 ∧
    hcrAfter (step { st 0x00000100 [.virtualEOIRWrite { eoir 3 with isVirtualSGI := true }] with
      cfg := { cfg with featGICv4p1 := false, res0Readback := 0x00000100 } }) = some 0x08000100 ∧
    hcrAfter (step (st 0x00000100 [.virtualEOIRWrite { eoir 3 with isVirtualSGI := true, clearsAPBit := false }]))
      = some 0x00000100 ∧
    hcrAfter (step (st 0x00000004 [.virtualEOIRWrite (eoir 40)])) = some 0x08000004 ∧
    hcrAfter (step (st 0x78007DFF [.virtualEOIRWrite (eoir 40)])) = some 0x80007DFF := by decide

/-- R101: without EL2 the event does not occur. -/
theorem test_no_event_without_el2 :
    refusalOf (step { st 0 [.virtualEOIRWrite (eoir 40)] with cfg := cfgNoEL2 }) = some .eventNeedsEL2 := by decide

/-! ### The maintenance interrupt (section 2.6) -/

/-- Inputs with the given List registers. -/
def withLrs (l : List ListReg) : Inputs := { Inputs.start with lrs := l }

/-- n List registers, v of them valid, p of them pending. -/
def lrs (n v p : Nat) : List ListReg :=
  (List.range n).map fun k => { state := if k < p then 1 else 2, valid := decide (k < v) }

/-- The level of a register value with both values equal. -/
def level (h : Word) (i : Inputs) : Bool := maintLevel (Hcr.eff cfg h) (Hcr.eoiCount h) i

/-- VM2 to VM12, VM24. -/
theorem test_maintenance :
    level 0x080000FE (withLrs (lrs 4 0 0)) = false ∧ level 0x00000001 (withLrs (lrs 4 0 0)) = false ∧
    level 0x00000003 (withLrs (lrs 4 0 2)) = true ∧ level 0x00000003 (withLrs (lrs 4 1 2)) = true ∧
    level 0x00000003 (withLrs (lrs 4 2 2)) = false ∧ level 0x00000005 (withLrs (lrs 4 4 4)) = false ∧
    level 0x08000005 (withLrs (lrs 4 4 4)) = true ∧ level 0xF8000005 (withLrs (lrs 4 4 4)) = true ∧
    level 0x08000001 (withLrs (lrs 4 4 4)) = false ∧ level 0x00000009 (withLrs (lrs 4 4 0)) = true ∧
    level 0x00000009 (withLrs (lrs 4 4 1)) = false ∧ level 0x07FF8201 (withLrs (lrs 4 4 4)) = false := by decide

/-- VM13 to VM20, VM22, VM23. -/
theorem test_maintenance_groups :
    level 0x00000011 { withLrs (lrs 4 4 4) with veng0 := true } = true ∧ level 0x00000011 (withLrs (lrs 4 4 4)) = false ∧
    level 0x00000021 (withLrs (lrs 4 4 4)) = true ∧ level 0x00000021 { withLrs (lrs 4 4 4) with veng0 := true } = false ∧
    level 0x00000041 { withLrs (lrs 4 4 4) with veng1 := true } = true ∧ level 0x00000041 (withLrs (lrs 4 4 4)) = false ∧
    level 0x00000081 (withLrs (lrs 4 4 4)) = true ∧ level 0x00000081 { withLrs (lrs 4 4 4) with veng1 := true } = false ∧
    level 0x00000001 { withLrs (lrs 4 4 4) with otherMaintSources := true } = true ∧
    level 0x00000000 { withLrs (lrs 4 4 4) with otherMaintSources := true } = false := by decide

/-! ### Field traps (section 2.7); with several causes the named one is free, so only single causes are tested -/

/-- The causes that apply, with both values equal. -/
def causes (h : Word) (i : Inputs) (a : RegAccess) : List TrapCause := trapCauses cfg (Hcr.eff cfg h) i a

/-- Inputs at Non-secure EL1. -/
def nsEL1 : Inputs := { Inputs.start with el := .el1, isNonSecure := true }

/-- VT1 to VT6, VT16, VT20. -/
theorem test_tc :
    causes 0x00000400 nsEL1 (acc .iccPMR false) = [.tc] ∧ causes 0x00000400 nsEL1 (acc .icvRPR false) = [.tc] ∧
    causes 0x00000400 nsEL1 (acc .iccSGI1R true) = [.tc] ∧
    causes 0x00000400 { nsEL1 with isNonSecure := false } (acc .iccPMR false) = [] ∧
    causes 0 nsEL1 (acc .iccPMR false) = [] ∧
    causes 0x00000400 nsEL1 { acc (.otherICC 0) false with isGroup0Reg := true } = [] ∧
    causes 0x00000400 { nsEL1 with el := .el2 } (acc .iccPMR false) = [] ∧
    causes 0x00000400 nsEL1 (acc .iccCTLR true) = [.tc] := by decide

/-- VT7 to VT15. -/
theorem test_group_and_dir_traps :
    causes 0x00000800 nsEL1 { acc (.otherICV 0) false with isGroup0Reg := true } = [.tall0] ∧
    causes 0x00000800 nsEL1 { acc (.otherICV 0) false with isGroup1Reg := true } = [] ∧
    causes 0x00001000 nsEL1 { acc (.otherICV 0) true with isGroup1Reg := true } = [.tall1] ∧
    causes 0x00004000 nsEL1 (acc .icvDIR true) = [.tdir] ∧
    trapCauses { cfg with tdirTrapsIccDir := true } (Hcr.eff cfg 0x00004000) nsEL1 (acc .iccDIR true) = [.tdir] ∧
    causes 0x00004000 nsEL1 (acc .iccDIR true) = [] ∧ causes 0x00004000 nsEL1 (acc .icvPMR true) = [] ∧
    causes 0x00004400 nsEL1 (acc .icvDIR true) = [.tc, .tdir] ∧
    trapCauses cfgMin (Hcr.eff cfgMin 0x00004000) nsEL1 (acc .icvDIR true) = [] := by decide

/-- VT18 and VT19. -/
theorem test_local_sei :
    faultOf (step (guest 0x00002000 [.localSEI])) = some (.trapToEL2 .tsei) ∧
    hcrAfter (step (guest 0 [.localSEI])) = some 0 := by decide

/-- VT5: the access proceeds. VG5 and VG6: what an IAR read returns with En 0 and with En 1. -/
theorem test_proceeds : hcrAfter (step (guest 0 [.el1SysRegAccess (acc .iccPMR false)])) = some 0 := by decide

theorem test_iar_read :
    ((st 0xF8007DFE []).iarRead .icvIAR1 40).returned = some (.iarRead 77) ∧
    ((st 0x00000001 []).iarRead .icvIAR1 40).returned = some (.iarRead 40) := by decide

/-! ### Reset (section 2.9), the AArch64 name, synchronisation -/

/-- VZ1 and VZ3: with no read-back bit a reset gives 0 whatever is drawn. -/
theorem test_reset (free : Word) : Hcr.resetValue cfg free = 0 := by simp [Hcr.resetValue, cfg]

/-- VZ2: with bit 9 a read-back bit, all ones drawn. -/
theorem test_reset_readback : Hcr.resetValue { cfg with res0Readback := 0x00000200 } 0xFFFFFFFF = 0x00000200 := by decide

/-- R58: a write does not move the synchronised value; P6 step 2 does. -/
theorem test_lagging :
    (st 0 [] |>.writeHcr 0x00004401).sync = 0 ∧ ((st 0 [] |>.writeHcr 0x00004401).syncHcr).sync = 0x00004401 := by decide

/-! ### Witnesses of the statements' hypotheses -/

/-- A state at EL2 whose access is permitted meets the invariant. -/
theorem witness_inv : (st 0x28000005 []).Inv := ⟨by decide, by decide, by decide, by decide⟩

theorem witness_inv_no_el2 :
    State.Inv (State.resetOf cfgNoEL2 { Inputs.start with el := .el3, msreSre := true } 0) ∧ cfgNoEL2.haveEL2 = false :=
  ⟨⟨by decide, by decide, by decide, by decide⟩, by decide⟩

/-- ConditionalFormsRefused. -/
theorem witness_condition :
    (0 : BitVec 4) ≠ 0b1110 ∧ (AccessOperands.ofIchHcr true 3).coproc = 15 ∧ (AccessOperands.ofIchHcr true 3).opc1 = 4 ∧
    (AccessOperands.ofIchHcr true 3).crn = 12 ∧ (AccessOperands.ofIchHcr true 3).crm = 11 ∧
    (AccessOperands.ofIchHcr true 3).opc2 = 0 := by decide

/-- MrcCompletes and McrCompletes, at EL2 and at EL3, in A32 with t 14 and in T32 with t 12. -/
theorem witness_access :
    AccessPermitted (st 0 []) ∧
    AccessPermitted { st 0 [] with inputs := { Inputs.start with el := .el3, msreSre := true } } ∧
    (14 : RegNum) ≠ 15 ∧ ((12 : RegNum) ≠ 15 ∧ (12 : RegNum) ≠ 13) := by decide

/-- AccessCheckDecides, UndefinedExactlyWhen, T12TrapsExactlyWhen: one state for each line. -/
theorem witness_check_lines :
    faultOf (exec (.mrcA32 4) { guest 1 [] with cfg := { cfg with haveAArch32 := false } }) = some .undefined ∧
    faultOf (exec (.mrcA32 4) { guest 1 [] with inputs := { nsEL1 with el := .el0 } }) = some .undefined ∧
    faultOf (exec (.mrcA32 4) { guest 1 [] with inputs := { nsEL1 with el2Enabled := true, hstrEl2T12 := true } })
      = some (.a64SystemAccessTrap .el2 3) ∧
    faultOf (exec (.mcrA32 4) { guest 1 [] with
      inputs := { nsEL1 with el2Enabled := true, el2UsesAArch32 := true, hstrT12 := true } }) = some (.hypTrap 3) ∧
    faultOf (exec (.mrcT32 4) (guest 1 [])) = some .undefined ∧
    faultOf (exec (.mcrT32 4) { st 1 [] with inputs := { Inputs.start with hsreSre := false } }) = some .undefined ∧
    faultOf (exec (.mcrT32 4) { st 1 [] with inputs := { Inputs.start with el := .el3 } }) = some .undefined := by
  decide

/-- WrittenFieldByField, ReadReturnsLastWrite, WriteBackLosesCount: instructions that complete one after the other. -/
theorem witness_write_then_read :
    ∃ s₁ s₂, exec (.mcrA32 0) (st 0 []) = .next s₁ ∧ exec (.mrcT32 1) s₁ = .next s₂ ∧ (st 0 []).cfg.haveEL2 = true :=
  ⟨_, _, rfl, rfl, rfl⟩

theorem witness_write_back :
    ∃ s₁ s₂, exec (.mrcA32 3) (st 0x28000005 []) = .next s₁ ∧ exec (.mcrA32 3) s₁.countEoi = .next s₂ ∧
      (st 0x28000005 []).cfg.haveEL2 = true :=
  ⟨_, _, rfl, rfl, rfl⟩

/-- NoEL2Accesses: an EL1 access is Undefined, and at EL3 with SRE 1 it completes. -/
theorem witness_no_el2 :
    faultOf (exec (.mrcA32 1) (State.resetOf cfgNoEL2 { Inputs.start with el := .el1 } 0)) = some .undefined ∧
    hcrAfter (exec (.mcrA32 1) ((State.resetOf cfgNoEL2 { Inputs.start with el := .el3, msreSre := true } 0).writeReg 1
      0xFFFFFFFF)) = some 0x00000200 := by decide

/-- StepRunsDecodedInstruction and StepRefusesUndecoded. -/
theorem witness_step :
    (st 0 [.instr (.a32 0xEE9C0F1B)]).events = .instr (.a32 0xEE9C0F1B) :: [] ∧
    decode (.a32 0xEE9C0F1B) = .ok (.mrcA32 0) ∧ decodeTableWord 32 0xEE8C0F1B = some (.mcrA32 0) ∧
    refusalOf (step (st 0 [.instr (.a32 0)])) = some (.encoding .notMrcOrMcr) := by decide

/-- OnlyTheseEventsRaise: steps that fault, by an instruction, by another mechanism and by a local SEI; by a field in
`witness_trap_cause`. -/
theorem witness_raise :
    faultOf (step (guest 1 [.instr (.a32 0xEE9C4F1B)])) = some .undefined ∧
    faultOf (step (guest 0 [.el1SysRegAccess { acc .iccPMR false with otherTrap := some 5 }])) = some (.otherTrap 5) ∧
    faultOf (step (guest 0x00002000 [.localSEI])) = some (.trapToEL2 .tsei) := by decide

/-- EoirWriteCounts (also as a virtual SGI with the gate open), at the ends of the identifier's and the count's range. -/
theorem witness_eoir :
    (st 0xF0000000 []).EffIs Hcr.vSGIEOICount false ∧ (eoir 0).id < 8192 ∧ (eoir 8191).id < 8192 ∧
    (Hcr.eoiCount (st 0xF0000000 []).hcr).toNat < 31 ∧ (Hcr.eoiCount (st 0xF0000000 []).sync).toNat < 31 ∧
    (st 0 []).inputs.eoiMode = false ∧
    hcrAfter (step (st 0xF0000000 [.virtualEOIRWrite { eoir 8191 with isVirtualSGI := true }])) = some 0xF8000000 := by
  decide

/-- DirWriteCounts, the same. -/
theorem witness_dir :
    (modeOne 0xF0000000 []).EffIs Hcr.vSGIEOICount false ∧ (dir 8191).id < 8192 ∧
    (Hcr.eoiCount (modeOne 0xF0000000 []).hcr).toNat < 31 ∧ (Hcr.eoiCount (modeOne 0xF0000000 []).sync).toNat < 31 ∧
    (modeOne 0 []).inputs.eoiMode = true ∧
    hcrAfter (step (modeOne 0xF0000000 [.virtualDIRWrite { dir 8191 with isVirtualSGI := true }])) = some 0xF8000000 := by
  decide

/-- EoirWriteMayCount and FullCountKeepsOtherBits. -/
theorem witness_may_count :
    (st 0 [.virtualEOIRWrite { eoir 40 with clearsAPBit := false }]).cfg.haveEL2 = true ∧
    (Hcr.eoiCount (st 0 []).hcr).toNat < 31 ∧ (Hcr.eoiCount (st 0xF8000001 []).hcr).toNat = 31 := by decide

/-- WrongModeOrGatedNotCounted: the closed gate. -/
theorem witness_gate : cfg.featGICv4p1 = true ∧ (st 0x00000100 []).EffIs Hcr.vSGIEOICount true := by decide

/-- IarReadGatedByEn, DisabledInterfaceIsSilent: En 0 and En 1. -/
theorem witness_en : (st 0xF8007DFE []).EffIs Hcr.en false ∧ (st 1 []).EffIs Hcr.en true := by decide

/-- CommonRegistersTrap, GroupRegistersTrap, DirWritesTrap, CompetingTraps, TrapCauseApplies: single causes, the named
cause being the only one. -/
theorem witness_traps :
    (acc .icvRPR false).admitted = true ∧ (guest 0x00000400 []).EffIs Hcr.tc true ∧
    RegAccess.admitted { acc .icvIAR0 false with isGroup0Reg := true } = true ∧
    (guest 0x00000800 []).EffIs Hcr.tall0 true ∧ (guest 0x00001000 []).EffIs Hcr.tall1 true ∧
    (acc .icvDIR true).admitted = true ∧ (guest 0x00004000 []).EffIs Hcr.tdir true ∧
    (guest 0 []).inputs.isNonSecure = true ∧ (guest 0 []).inputs.el = .el1 ∧
    RegAccess.admitted { acc .iccPMR false with otherTrap := some 5 } = true := by decide

theorem witness_trap_cause : step (guest 0x00000400 [.el1SysRegAccess (acc .icvRPR false)]) = .fault (.trapToEL2 .tc) := by
  have h : trapCauses cfg (State.eventEff (guest 0x00000400 [])) (guest 0x00000400 []).inputs (acc .icvRPR false) = [.tc] := by
    decide
  rw [step_of_events (e := .el1SysRegAccess (acc .icvRPR false)) (es := []) rfl]
  show settled (el1SysRegAccess (guest 0x00000400 []) (acc .icvRPR false)) = _
  simp only [el1SysRegAccess, pickCause]
  rw [show (guest 0x00000400 []).cfg = cfg from rfl, h]
  simp [acc, raise, Nat.mod_one]

/-- UntrappedAccessProceeds: each of its three alternatives. -/
theorem witness_untrapped :
    (st 0 []).inputs.isNonSecure = false ∧ (st 0 []).inputs.el ≠ .el1 ∧
    ((guest 0x00000400 []).EffIs Hcr.tall0 false ∧ (guest 0x00000400 []).EffIs Hcr.tall1 false ∧
      (guest 0x00000400 []).EffIs Hcr.tdir false ∧ (ICReg.otherICC 0).common = false) := by decide

/-- LocalSEITraps: both lines. -/
theorem witness_sei : (guest 0x00002000 []).EffIs Hcr.tsei true ∧ (guest 0 []).EffIs Hcr.tsei false := by decide

/-- MaintenanceLevel, CountAssertsMaintenance, OtherStateWriters, StepKeepsInvariant: a step that answers a next state
with both values equal and LRENPIE and EOIcount set (P2 step 1). -/
theorem witness_next :
    ∃ s', step (st 0x00000005 [.virtualEOIRWrite (eoir 40)]) = .next s' ∧ s'.sync = s'.hcr ∧ s'.hcr = 0x08000005 ∧
      s'.EffIs Hcr.en true ∧ s'.EffIs Hcr.lrenpie true ∧ Hcr.eoiCount s'.hcr ≠ 0 ∧ s'.maintIRQ = true := by
  refine ⟨_, rfl, ?_⟩
  decide

/-- The second line of CountAssertsMaintenance: only LRENPIE and En set, count 0. -/
theorem witness_next_zero :
    ∃ s', step (st 0x00000005 []) = .next s' ∧ s'.EffIs Hcr.uie false ∧ s'.EffIs Hcr.npie false ∧
      s'.EffIs Hcr.vGrp0EIE false ∧ s'.EffIs Hcr.vGrp0DIE false ∧ s'.EffIs Hcr.vGrp1EIE false ∧
      s'.EffIs Hcr.vGrp1DIE false ∧ s'.inputs.otherMaintSources = false ∧ Hcr.eoiCount s'.hcr = 0 := by
  refine ⟨_, rfl, ?_⟩
  decide

/-- ContextSyncSynchronises and ClosedListOfWriters: steps that change the synchronised value and the register. -/
theorem witness_changes :
    (∃ s', step { st 0 [.contextSync] with hcr := 1 } = .next s' ∧ s'.sync ≠ 0) ∧
    (∃ s', step (st 0 [.a64Write 1]) = .next s' ∧ s'.hcr ≠ (st 0 []).hcr) := by
  refine ⟨⟨_, rfl, ?_⟩, _, rfl, ?_⟩ <;> decide

/-- OtherStateWriters: steps that change the inputs, a general register and what was returned. -/
theorem witness_other_changes :
    (∃ s', step (st 0 [.setInputs nsEL1]) = .next s' ∧ s'.inputs ≠ (st 0 []).inputs) ∧
    (∃ s', step (st 0 [.setReg 3 5]) = .next s' ∧ s'.x ≠ (st 0 []).x) ∧
    (∃ s', step (st 0 [.a64Read]) = .next s' ∧ s'.returned ≠ (st 0 []).returned) := by
  refine ⟨⟨_, rfl, ?_⟩, ⟨_, rfl, ?_⟩, _, rfl, ?_⟩ <;> decide

/-- ReservedBitsHaveNoEffect: two register values that differ in RES0 bits only, under steps of each kind. -/
theorem witness_reserved :
    Hcr.eff cfg 0x07FF8201 = Hcr.eff cfg 0x00000001 ∧
    faultOf (step (st 0x07FFA201 [.localSEI])) = some (.trapToEL2 .tsei) ∧
    refusalOf (step (st 0x07FF8201 [.instr (.a32 0)])) = some (.encoding .notMrcOrMcr) ∧
    regAfter 3 (step (st 0x07FF8201 [.instr (.a32 0xEE9C3F1B)])) = some 0x07FF8201 ∧
    hcrAfter (step (st 0x07FF8201 [.virtualEOIRWrite (eoir 40)])) = some 0x0FFF8201 := by decide

/-- ResetMeetsInvariant: admitted parameters and inputs. -/
theorem witness_admitted : Hcr.configAdmitted cfg = true ∧ Inputs.start.admitted cfg = true := by decide

end Sys2Proof.Tests
end

