-- ==== Sys2Proof/Proofs/MrcAccess.lean ====
section
/-! The MRC (R80): in both instruction sets the one operation `readIchHcr`, which is a checked register write. -/

namespace Sys2Proof.Machine

/-- An MRC of either instruction set, with a register number that set admits, is the shared read (R80, R40). -/
theorem exec_mrc_eq_readIchHcr {i : Instr} {t : RegNum} (s : State)
    (hi : i = .mrcA32 t ∧ t ≠ 15 ∨ i = .mrcT32 t ∧ t ≠ 15 ∧ t ≠ 13) : exec i s = readIchHcr t s := by
  obtain ⟨rfl, ht⟩ | ⟨rfl, ht⟩ := hi
  · exact if_pos ((rtAdmittedA32_iff t).2 ht)
  · exact if_pos ((rtAdmittedT32_iff t).2 ht)

/-- Where the access is permitted the read completes with the stored value in the register (R80, R83). -/
theorem readIchHcr_permitted {s : State} (t : RegNum) (h : AccessPermitted s) :
    readIchHcr t s = .next (s.writeReg t s.hcr) :=
  checked_permitted h

/-- The read raises exactly what the access check decides (R80, R109). -/
theorem readIchHcr_fault {s : State} {t : RegNum} {f : Fault} :
    readIchHcr t s = .fault f ↔ accessCheck s.cfg s.inputs = some f :=
  checked_fault

/-- Settles O11: both instructions are `readIchHcr`, whose only effect is one register write. -/
theorem mrcCompletes : Obligations.MrcCompletes := by
  unfold Obligations.MrcCompletes
  constructor
  · intro s i t hi hA hSre
    have ht : t ≠ 15 := hi.elim (·.2) (·.2.1)
    refine ⟨s.writeReg t s.hcr, ?completes, ?value, ?others, ?frame⟩
    case completes => rw [exec_mrc_eq_readIchHcr s hi, readIchHcr_permitted t ⟨hA, hSre⟩]
    case value => exact s.readReg_writeReg_same t s.hcr ht
    case others => exact fun u hu => s.readReg_writeReg_other t u s.hcr hu
    case frame => exact s.writeReg_frame t s.hcr
  · intro s i t f hi
    rw [exec_mrc_eq_readIchHcr s hi]
    exact readIchHcr_fault

end Sys2Proof.Machine
end

