-- ==== Sys2Proof/Proofs/UncountedWrites.lean ====
section
/-! Virtual EOIR and DIR writes that never count (R95, R96): one guard stands before everything either write could change,
and a found List register or a wrong identifier closes it. -/

namespace Sys2Proof.Machine

/-- Where EL2 is implemented an event of the virtual CPU interface completes (R101). -/
theorem needsEL2_next_of_haveEL2 {s : State} (done : State) (h : s.cfg.haveEL2 = true) :
    needsEL2 s done = .next done := if_pos h

/-- A step whose event leaves the state as it was completes, takes the event off the list and changes nothing else but
the outputs. -/
theorem step_sameMachine_of_runEvent {s : State} {e : Event} {es : List Event} (he : s.events = e :: es)
    (hr : runEvent e { s with events := es } = .next { s with events := es }) :
    ∃ s', step s = .next s' ∧ s'.events = es ∧ s.SameMachine s' := by
  refine ⟨State.settle { s with events := es }, ?completes, rfl, ?frame⟩
  case completes => rw [step_of_events he, hr, settled_next]
  case frame => constructor <;> rfl

/-- The guard that both kinds of write share is closed by a found List register, by an identifier that is not valid and
by one in the LPI range, whatever the EOI mode asks (R95, R96). -/
theorem countGuard_eq_false {idValid lrFound : Bool} {id : Nat} (mode : Bool)
    (h : lrFound = true ∨ idValid = false ∨ 8192 ≤ id) :
    (idValid && id < 8192 && mode && !lrFound) = false := by
  obtain hFound | hInvalid | hLpi := h
  · simp [hFound]
  · simp [hInvalid]
  · simp [Nat.not_lt.2 hLpi]

/-- Such an EOIR write leaves the state as it was (R95, R96). -/
theorem State.virtualEOIRWrite_of_foundOrInvalid (s : State) {w : EoirWrite}
    (h : w.lrFound = true ∨ w.idValid = false ∨ 8192 ≤ w.id) : s.virtualEOIRWrite w = s := by
  unfold State.virtualEOIRWrite
  rw [countGuard_eq_false (!s.inputs.eoiMode) h, if_neg Bool.false_ne_true]

/-- Such a DIR write leaves the state as it was (R95, R96). -/
theorem State.virtualDIRWrite_of_foundOrInvalid (s : State) {w : DirWrite}
    (h : w.lrFound = true ∨ w.idValid = false ∨ 8192 ≤ w.id) : s.virtualDIRWrite w = s := by
  unfold State.virtualDIRWrite
  rw [countGuard_eq_false s.inputs.eoiMode h, if_neg Bool.false_ne_true]

/-- Settles O27: the closed guard makes either write an event that leaves the state as it was. -/
theorem foundOrInvalidNotCounted : Obligations.FoundOrInvalidNotCounted := by
  unfold Obligations.FoundOrInvalidNotCounted
  constructor
  · intro s w es he hEL2 hw
    apply step_sameMachine_of_runEvent he
    simp only [runEvent]
    rw [State.virtualEOIRWrite_of_foundOrInvalid _ hw]
    exact needsEL2_next_of_haveEL2 _ hEL2
  · intro s w es he hEL2 hw
    apply step_sameMachine_of_runEvent he
    simp only [runEvent]
    rw [State.virtualDIRWrite_of_foundOrInvalid _ hw]
    exact needsEL2_next_of_haveEL2 _ hEL2

end Sys2Proof.Machine
end

