-- ==== Sys2Proof/Proofs/AccessOutcomes.lean ====
section
/-! The access check read one exception level at a time (R109), and from it the outcome of every admitted instruction:
`exec_fault` turns each answer of the check into an outcome of `exec`. -/

namespace Sys2Proof.Machine

section
variable {c : Config} {i : Inputs}

/-- Without AArch32 no further test is made (R109). -/
theorem accessCheck_noAArch32 (hA : c.haveAArch32 = false) : accessCheck c i = some .undefined := by
  simp [accessCheck, hA]

/-- The answer at EL0 (R109). -/
theorem accessCheck_el0 (hE : i.el = .el0) : accessCheck c i = some .undefined := by
  simp [accessCheck, hE]

/-- The answer at EL1: the two T12 tests, the one of an AArch64 EL2 first (R109). -/
theorem accessCheck_el1 (hA : c.haveAArch32 = true) (hE : i.el = .el1) :
    accessCheck c i = some
      (if i.el2Enabled = true ∧ i.el2UsesAArch32 = false ∧ i.hstrEl2T12 = true then .a64SystemAccessTrap .el2 0x03
       else if i.el2Enabled = true ∧ i.el2UsesAArch32 = true ∧ i.hstrT12 = true then .hypTrap 0x03
       else .undefined) := by
  simp [accessCheck, hA, hE, trapNumber, and_assoc, apply_ite some]

/-- The answer at EL2 (R109). -/
theorem accessCheck_el2 (hA : c.haveAArch32 = true) (hE : i.el = .el2) :
    accessCheck c i = if i.hsreSre = false then some .undefined else none := by
  simp [accessCheck, hA, hE]

/-- The answer at EL3 (R109). -/
theorem accessCheck_el3 (hA : c.haveAArch32 = true) (hE : i.el = .el3) :
    accessCheck c i = if i.msreSre = false then some .undefined else none := by
  simp [accessCheck, hA, hE]

/-- Only at EL1 does the check answer with anything but UNDEFINED (R107, R108). -/
theorem el1_of_accessCheck_trap {f : Fault} (hA : c.haveAArch32 = true) (h : accessCheck c i = some f)
    (hf : f ≠ .undefined) : i.el = .el1 := by
  cases hE : i.el with
  | el0 => simp [accessCheck_el0 hE, hf.symm] at h
  | el1 => rfl
  | el2 => simp [accessCheck_el2 hA hE, hf.symm] at h
  | el3 => simp [accessCheck_el3 hA hE, hf.symm] at h

/-- When the check answers with the trap to an AArch64 EL2 (R107). -/
theorem accessCheck_eq_a64Trap_iff (hA : c.haveAArch32 = true) :
    accessCheck c i = some (.a64SystemAccessTrap .el2 0x03) ↔
      i.el = .el1 ∧ i.el2Enabled = true ∧ i.el2UsesAArch32 = false ∧ i.hstrEl2T12 = true := by
  constructor
  · intro h
    have hE := el1_of_accessCheck_trap hA h nofun
    rw [accessCheck_el1 hA hE] at h
    split_ifs at h with hA64
    · exact ⟨hE, hA64⟩
    · cases h
    · cases h
  · rintro ⟨hE, hA64⟩
    rw [accessCheck_el1 hA hE, if_pos hA64]

/-- When the check answers with the trap to an AArch32 EL2: the test before it fails, since EL2 does not use AArch64 (R108). -/
theorem accessCheck_eq_hypTrap_iff (hA : c.haveAArch32 = true) :
    accessCheck c i = some (.hypTrap 0x03) ↔
      i.el = .el1 ∧ i.el2Enabled = true ∧ i.el2UsesAArch32 = true ∧ i.hstrT12 = true := by
  constructor
  · intro h
    have hE := el1_of_accessCheck_trap hA h nofun
    rw [accessCheck_el1 hA hE] at h
    split_ifs at h with _ hHyp
    · cases h
    · exact ⟨hE, hHyp⟩
    · cases h
  · rintro ⟨hE, hHyp⟩
    have hNotA64 : i.el2UsesAArch32 ≠ false := by simp [hHyp.2.1]
    rw [accessCheck_el1 hA hE, if_neg (hNotA64 ·.2.1), if_pos hHyp]

/-- At EL1 with no T12 trap that applies the check answers UNDEFINED (R109). -/
theorem accessCheck_el1_noTrap (hA : c.haveAArch32 = true) (hE : i.el = .el1)
    (h : i.el2Enabled = false ∨ i.el2UsesAArch32 = false ∧ i.hstrEl2T12 = false ∨
      i.el2UsesAArch32 = true ∧ i.hstrT12 = false) : accessCheck c i = some .undefined := by
  rw [accessCheck_el1 hA hE]
  obtain hOff | ⟨hUses, hT12⟩ | ⟨hUses, hT12⟩ := h
  · simp [hOff]
  · simp [hUses, hT12]
  · simp [hUses, hT12]

end

/-- Where the access is permitted every admitted instruction completes (R80, R81). -/
theorem exec_completes {i : Instr} {s : State} (hi : i.wellFormed = true) (h : AccessPermitted s) :
    ∃ s', exec i s = .next s' := by
  cases i <;> exact ⟨_, (if_pos hi).trans (checked_permitted h)⟩

/-- Settles O10: the two trap answers of the check, each from EL1 alone. -/
theorem t12TrapsExactlyWhen : Obligations.T12TrapsExactlyWhen := by
  unfold Obligations.T12TrapsExactlyWhen
  intro i s hi hA
  rw [exec_fault hi, exec_fault hi]
  exact ⟨accessCheck_eq_a64Trap_iff hA, accessCheck_eq_hypTrap_iff hA⟩

/-- Settles O8: each raised line is an answer of the check at its level, and the two other lines are permitted accesses. -/
theorem accessCheckDecides : Obligations.AccessCheckDecides := by
  unfold Obligations.AccessCheckDecides
  intro i s hi
  have raised {f : Fault} : accessCheck s.cfg s.inputs = some f → exec i s = .fault f := (exec_fault hi).2
  refine ⟨fun hA => raised (accessCheck_noAArch32 hA), fun hA => ⟨?el0, ?el1, ?el2, ?el3⟩⟩
  case el0 => exact fun hE => raised (accessCheck_el0 hE)
  case el1 =>
    intro hE
    refine ⟨?a64Trap, ?hypTrap, ?noTrap⟩
    case a64Trap => exact fun hOn hUses hT12 => raised ((accessCheck_eq_a64Trap_iff hA).2 ⟨hE, hOn, hUses, hT12⟩)
    case hypTrap => exact fun hOn hUses hT12 => raised ((accessCheck_eq_hypTrap_iff hA).2 ⟨hE, hOn, hUses, hT12⟩)
    case noTrap => exact fun hNone => raised (accessCheck_el1_noTrap hA hE hNone)
  case el2 =>
    intro hE
    constructor
    · exact fun hSre => raised ((accessCheck_el2 hA hE).trans (if_pos hSre))
    · exact fun hSre => exec_completes hi ⟨hA, .inl ⟨hE, hSre⟩⟩
  case el3 =>
    intro hE
    constructor
    · exact fun hSre => raised ((accessCheck_el3 hA hE).trans (if_pos hSre))
    · exact fun hSre => exec_completes hi ⟨hA, .inr ⟨hE, hSre⟩⟩

end Sys2Proof.Machine
end

