-- ==== Sys2Proof/Proofs/Decoding.lean ====
section
/-! The decoder and the encoder against each other (30_encoding.md). Which words decode is said once for each instruction
set: exactly the encodings of the read and the write of ICH_HCR with an admitted register number. The round trips and the
match and mask of the opcode table follow from that. -/

namespace Sys2Proof

open Machine

/-- Operands select ICH_HCR exactly where the five operand fields have the values of R67. -/
theorem selectsIchHcr_iff_fields (f : AccessOperands) :
    f.selectsIchHcr = true ↔ f.coproc = 15 ∧ f.opc1 = 4 ∧ f.crn = 12 ∧ f.crm = 11 ∧ f.opc2 = 0 := by
  simp [AccessOperands.selectsIchHcr, and_assoc]

@[simp] theorem selectsIchHcr_ofIchHcr (isRead : Bool) (t : RegNum) :
    (AccessOperands.ofIchHcr isRead t).selectsIchHcr = true := rfl
@[simp] theorem ofIchHcr_isRead (isRead : Bool) (t : RegNum) : (AccessOperands.ofIchHcr isRead t).isRead = isRead := rfl
@[simp] theorem ofIchHcr_t (isRead : Bool) (t : RegNum) : (AccessOperands.ofIchHcr isRead t).t = t := rfl

/-! ### The decoder on a word made of operands -/

/-- The A32 access of ICH_HCR with the given direction and register number. -/
def Instr.accessA32 (isRead : Bool) (t : RegNum) : Instr := if isRead then .mrcA32 t else .mcrA32 t

/-- The T32 access of ICH_HCR with the given direction and register number. -/
def Instr.accessT32 (isRead : Bool) (t : RegNum) : Instr := if isRead then .mrcT32 t else .mcrT32 t

/-- What the decoder answers for the A32 word of any condition and operands (R72). -/
theorem decode_a32_encodeA32 (cond : BitVec 4) (f : AccessOperands) :
    decode (.a32 (encodeA32 cond f)) =
      if f.selectsIchHcr = false then .error .otherRegister
      else if cond ≠ 0b1110 then .error .conditional
      else if rtAdmittedA32 f.t = false then .error .registerNotAdmitted
      else .ok (.accessA32 f.isRead f.t) := by
  simp only [decode, decodeA32, a32Operands_encodeA32, (encodeA32_fields cond f).1, Instr.accessA32, apply_ite Except.ok]

/-- What the decoder answers for the T32 halfwords of any operands (R72). -/
theorem decode_t32_encodeT32 (f : AccessOperands) (inITBlock : Bool) :
    decode (.t32 (encodeT32First f) (encodeT32Second f) inITBlock) =
      if f.selectsIchHcr = false then .error .otherRegister
      else if inITBlock then .error .insideITBlock
      else if rtAdmittedT32 f.t = false then .error .registerNotAdmitted
      else .ok (.accessT32 f.isRead f.t) := by
  simp only [decode, decodeT32, t32Operands_encodeT32, Instr.accessT32, apply_ite Except.ok]

/-! ### Which words decode -/

/-- An A32 word decodes exactly where it encodes an access of ICH_HCR, condition always, register number admitted. -/
theorem decode_a32_eq_ok_iff {w : Word} {i : Instr} :
    decode (.a32 w) = .ok i ↔
      ∃ isRead t, rtAdmittedA32 t = true ∧ w = encodeA32 0b1110 (.ofIchHcr isRead t) ∧ i = .accessA32 isRead t := by
  constructor
  · intro h
    cases ho : a32Operands w with
    | none => simp [decode, decodeA32, ho] at h
    | some f =>
      have hw := encodeA32_of_operands ho
      rw [← hw, decode_a32_encodeA32] at h
      split_ifs at h with hSel hCond hRt
      rw [Bool.not_eq_false, selectsIchHcr_iff] at hSel
      rw [not_not] at hCond
      cases h
      exact ⟨f.isRead, f.t, eq_true_of_ne_false hRt, by rw [← hSel, ← hCond, hw], rfl⟩
  · rintro ⟨isRead, t, ht, rfl, rfl⟩
    rw [decode_a32_encodeA32]
    simp [ht]

/-- A pair of T32 halfwords decodes exactly where it stands outside any IT block and encodes an access of ICH_HCR,
register number admitted. -/
theorem decode_t32_eq_ok_iff {a b : Halfword} {q : Bool} {i : Instr} :
    decode (.t32 a b q) = .ok i ↔
      q = false ∧ ∃ isRead t, rtAdmittedT32 t = true ∧
        (a = encodeT32First (.ofIchHcr isRead t) ∧ b = encodeT32Second (.ofIchHcr isRead t)) ∧
        i = .accessT32 isRead t := by
  constructor
  · intro h
    cases ho : t32Operands a b with
    | none => simp [decode, decodeT32, ho] at h
    | some f =>
      obtain ⟨rfl, rfl⟩ := encodeT32_of_operands ho
      rw [decode_t32_encodeT32] at h
      split_ifs at h with hSel hIT hRt
      rw [Bool.not_eq_false, selectsIchHcr_iff] at hSel
      cases h
      exact ⟨eq_false_of_ne_true hIT, f.isRead, f.t, eq_true_of_ne_false hRt,
        ⟨congrArg encodeT32First hSel, congrArg encodeT32Second hSel⟩, rfl⟩
  · rintro ⟨rfl, isRead, t, ht, ⟨rfl, rfl⟩, rfl⟩
    rw [decode_t32_encodeT32]
    simp [ht]

/-! ### Round trips -/

/-- Settles O5: each constructor's own words are words that decode. -/
theorem decodeOfEncode : Obligations.DecodeOfEncode := by
  unfold Obligations.DecodeOfEncode
  intro i hi
  cases i with
  | mrcA32 t => exact decode_a32_eq_ok_iff.2 ⟨true, t, hi, rfl, rfl⟩
  | mcrA32 t => exact decode_a32_eq_ok_iff.2 ⟨false, t, hi, rfl, rfl⟩
  | mrcT32 t => exact decode_t32_eq_ok_iff.2 ⟨rfl, true, t, hi, ⟨rfl, rfl⟩, rfl⟩
  | mcrT32 t => exact decode_t32_eq_ok_iff.2 ⟨rfl, false, t, hi, ⟨rfl, rfl⟩, rfl⟩

/-- Settles O6: a word that decodes is an encoding, of the read or of the write. -/
theorem decodedWordsAreEncodings : Obligations.DecodedWordsAreEncodings := by
  unfold Obligations.DecodedWordsAreEncodings
  constructor
  · intro w i h
    obtain ⟨isRead, t, ht, rfl, rfl⟩ := decode_a32_eq_ok_iff.1 h
    cases isRead <;> exact ⟨ht, rfl⟩
  · intro a b q i h
    obtain ⟨rfl, isRead, t, ht, ⟨rfl, rfl⟩, rfl⟩ := decode_t32_eq_ok_iff.1 h
    cases isRead <;> exact ⟨ht, rfl⟩

/-! ### Operands -/

/-- Settles O3: the decoder's answers for the words of any operands, the condition always and no IT block. -/
theorem operandsSelectTheRegister : Obligations.OperandsSelectTheRegister := by
  unfold Obligations.OperandsSelectTheRegister
  intro f
  rw [decode_a32_encodeA32, decode_t32_encodeT32]
  by_cases hSel : f.selectsIchHcr = true
  · rw [if_pos ((selectsIchHcr_iff_fields f).1 hSel), if_pos ((selectsIchHcr_iff_fields f).1 hSel)]
    simp [hSel, rtAdmittedA32, rtAdmittedT32, Instr.accessA32, Instr.accessT32, imp_iff_not_or]
  · rw [if_neg (mt (selectsIchHcr_iff_fields f).2 hSel), if_neg (mt (selectsIchHcr_iff_fields f).2 hSel)]
    simp [hSel]

/-- Settles O4: operands that select ICH_HCR leave the condition and the IT block as the next tests. -/
theorem conditionalFormsRefused : Obligations.ConditionalFormsRefused := by
  unfold Obligations.ConditionalFormsRefused
  intro f cond hCond hFields
  have hSel := (selectsIchHcr_iff_fields f).2 hFields
  rw [decode_a32_encodeA32, decode_t32_encodeT32, if_pos hCond]
  simp [hSel]

/-! ### Match and mask -/

/-- A word is its bits under the mask of the opcode table and its register number. -/
theorem eq_iff_mask_and_rt (v w : Word) :
    v = w ↔ v &&& 0xFFFF0FFF#32 = w &&& 0xFFFF0FFF#32 ∧ v.extractLsb' 12 4 = w.extractLsb' 12 4 := by
  constructor
  · rintro rfl
    exact ⟨rfl, rfl⟩
  · rintro ⟨hMask, hRt⟩
    apply BitVec.eq_of_getLsbD_eq
    intro n hn
    by_cases hRange : 12 ≤ n ∧ n < 16
    · have := congrArg (fun u => u.getLsbD (n - 12)) hRt
      simpa [show n - 12 < 4 by omega, show 12 + (n - 12) = n by omega] using this
    · have hBit : (0xFFFF0FFF#32).getLsbD n = true := by
        have all : ∀ k : Fin 32, ¬ (12 ≤ k.val ∧ k.val < 16) → (0xFFFF0FFF#32).getLsbD k = true := by decide
        exact all ⟨n, hn⟩ hRange
      have := congrArg (fun u => u.getLsbD n) hMask
      simpa only [BitVec.getLsbD_and, hBit, Bool.and_true] using this

/-- The match of the opcode table for a read or a write. -/
def tableMatch (isRead : Bool) : Word := if isRead then 0xEE9C0F1B#32 else 0xEE8C0F1B#32

/-- A word is the encoding of an access exactly where it has the row's match and the register number. -/
theorem eq_encodeA32_iff_match (w : Word) (isRead : Bool) (t : RegNum) :
    w = encodeA32 0b1110 (.ofIchHcr isRead t) ↔ w &&& 0xFFFF0FFF#32 = tableMatch isRead ∧ w.extractLsb' 12 4 = t := by
  have row : encodeA32 0b1110 (.ofIchHcr isRead t) &&& 0xFFFF0FFF#32 = tableMatch isRead ∧
      (encodeA32 0b1110 (.ofIchHcr isRead t)).extractLsb' 12 4 = t := by
    cases isRead
    · exact Laws.TableRow.mcrA32 t
    · exact Laws.TableRow.mrcA32 t
  rw [eq_iff_mask_and_rt, row.1, row.2]

/-- The T32 halfwords of operands, written as one number, are the A32 word with the condition always (R68, R69). -/
theorem encodeT32_append (isRead : Bool) (t : RegNum) :
    encodeT32First (.ofIchHcr isRead t) ++ encodeT32Second (.ofIchHcr isRead t) =
      encodeA32 0b1110 (.ofIchHcr isRead t) := by
  revert isRead t
  decide

/-- Two pairs of halfwords written as one number are the same number only where they are the same pair. -/
theorem append_halfwords_inj {a b c d : Halfword} : a ++ b = c ++ d ↔ a = c ∧ b = d := by
  constructor
  · intro h
    have hHigh := congrArg (fun w => w.extractLsb' 16 16) h
    have hLow := congrArg (fun w => w.extractLsb' 0 16) h
    simp only [BitVec.extractLsb'_append_eq_left, BitVec.extractLsb'_append_eq_right] at hHigh hLow
    exact ⟨hHigh, hLow⟩
  · rintro ⟨rfl, rfl⟩
    rfl

/-- A pair of halfwords is the encoding of an access exactly where, as one number, it has the row's match and the
register number. -/
theorem eq_encodeT32_iff_match (a b : Halfword) (isRead : Bool) (t : RegNum) :
    (a = encodeT32First (.ofIchHcr isRead t) ∧ b = encodeT32Second (.ofIchHcr isRead t)) ↔
      a ++ b &&& 0xFFFF0FFF#32 = tableMatch isRead ∧ b.extractLsb' 12 4 = t := by
  rw [← append_halfwords_inj, encodeT32_append, eq_encodeA32_iff_match,
    BitVec.extractLsb'_append_eq_of_add_le (show 12 + 4 ≤ 16 by decide)]

@[simp] theorem accessA32_inj {isRead isRead' : Bool} {t t' : RegNum} :
    Instr.accessA32 isRead t = .accessA32 isRead' t' ↔ isRead = isRead' ∧ t = t' := by
  cases isRead <;> cases isRead' <;> simp [Instr.accessA32]

@[simp] theorem accessT32_inj {isRead isRead' : Bool} {t t' : RegNum} :
    Instr.accessT32 isRead t = .accessT32 isRead' t' ↔ isRead = isRead' ∧ t = t' := by
  cases isRead <;> cases isRead' <;> simp [Instr.accessT32]

/-- An A32 word decodes to an access exactly where the opcode table's row admits it. -/
theorem decode_a32_eq_access_iff (w : Word) (isRead : Bool) (t : RegNum) :
    decode (.a32 w) = .ok (.accessA32 isRead t) ↔
      w &&& 0xFFFF0FFF#32 = tableMatch isRead ∧ w.extractLsb' 12 4 = t ∧ t ≠ 15 := by
  rw [decode_a32_eq_ok_iff, ← and_assoc, ← eq_encodeA32_iff_match, ← rtAdmittedA32_iff]
  constructor
  · rintro ⟨r, u, hu, hw, hi⟩
    obtain ⟨rfl, rfl⟩ := accessA32_inj.1 hi
    exact ⟨hw, hu⟩
  · rintro ⟨hw, ht⟩
    exact ⟨isRead, t, ht, hw, rfl⟩

/-- A pair of T32 halfwords decodes to an access exactly where the opcode table's row admits it. -/
theorem decode_t32_eq_access_iff (a b : Halfword) (q : Bool) (isRead : Bool) (t : RegNum) :
    decode (.t32 a b q) = .ok (.accessT32 isRead t) ↔
      a ++ b &&& 0xFFFF0FFF#32 = tableMatch isRead ∧ b.extractLsb' 12 4 = t ∧ t ≠ 15 ∧ t ≠ 13 ∧ q = false := by
  rw [decode_t32_eq_ok_iff]
  constructor
  · rintro ⟨hq, r, u, hu, hab, hi⟩
    obtain ⟨rfl, rfl⟩ := accessT32_inj.1 hi
    obtain ⟨hMask, hRt⟩ := (eq_encodeT32_iff_match a b _ _).1 hab
    obtain ⟨h15, h13⟩ := (rtAdmittedT32_iff _).1 hu
    exact ⟨hMask, hRt, h15, h13, hq⟩
  · rintro ⟨hMask, hRt, h15, h13, hq⟩
    have hWords := (eq_encodeT32_iff_match a b isRead t).2 ⟨hMask, hRt⟩
    exact ⟨hq, isRead, t, (rtAdmittedT32_iff t).2 ⟨h15, h13⟩, hWords, rfl⟩

/-- Settles O7: the two rows of each instruction set. -/
theorem decodingByMatchAndMask : Obligations.DecodingByMatchAndMask := by
  unfold Obligations.DecodingByMatchAndMask
  constructor
  · exact fun w t => ⟨decode_a32_eq_access_iff w true t, decode_a32_eq_access_iff w false t⟩
  · exact fun a b q t => ⟨decode_t32_eq_access_iff a b q true t, decode_t32_eq_access_iff a b q false t⟩

/-! ### Single words -/

/-- Settles O1: five words, evaluated by the decoder. -/
theorem specWordsDecode : Obligations.SpecWordsDecode := by
  unfold Obligations.SpecWordsDecode
  decide

/-- Settles O2: ten words, evaluated by the decoder. -/
theorem nearMissesRefused : Obligations.NearMissesRefused := by
  unfold Obligations.NearMissesRefused
  decide

end Sys2Proof
end

