-- ==== Sys2Proof/Proofs/Writers.lean ====
section
/-! What a step writes, field by field of the state, said once for every event (`EventWrites`, 10_state.md section 7), and
the invariant that every writer keeps. -/

namespace Sys2Proof.Machine

/-- What the event `e` may have changed where it takes `s` to `m`: each field with the closed list of its writers (R47,
R58, R86, R98). -/
structure EventWrites (e : Event) (s m : State) : Prop where
  cfg : m.cfg = s.cfg
  inputs : m.inputs ≠ s.inputs → e = .setInputs m.inputs
  x : m.x ≠ s.x →
    (∃ f t, e = .instr f ∧ (decode f = .ok (.mrcA32 t) ∨ decode f = .ok (.mrcT32 t))) ∨
      ∃ t v, e = .setReg t v ∧ m.x = s.x.set t v
  returned : m.returned ≠ s.returned → e = .a64Read ∨ ∃ r v, e = .iarRead r v
  sync : m.sync ≠ s.sync →
    e = .contextSync ∨ e = .reset ∨ (∃ w, e = .virtualEOIRWrite w) ∨ ∃ w, e = .virtualDIRWrite w
  hcr : m.hcr ≠ s.hcr →
    (∃ f t, e = .instr f ∧ (decode f = .ok (.mcrA32 t) ∨ decode f = .ok (.mcrT32 t)) ∧
      m.hcr = Hcr.writeValue s.cfg (s.readReg t)) ∨
    (∃ v, e = .a64Write v ∧ m.hcr = Hcr.writeValue s.cfg v) ∨
    (∃ w, e = .virtualEOIRWrite w ∧ ∀ n, n < 27 → m.hcr.getLsbD n = s.hcr.getLsbD n) ∨
    (∃ w, e = .virtualDIRWrite w ∧ ∀ n, n < 27 → m.hcr.getLsbD n = s.hcr.getLsbD n) ∨
    (e = .reset ∧ Hcr.eff s.cfg m.hcr = 0)

/-- An event that leaves the state as it was has written nothing. -/
theorem EventWrites.refl (e : Event) (s : State) : EventWrites e s s := by
  constructor <;> simp

/-- An instruction that completes writes as an MRC or as an MCR (R80, R81). -/
theorem eventWrites_instr {f : Fetched} {i : Instr} {s m : State} (hd : decode f = .ok i)
    (h : exec i s = .next m) : EventWrites (.instr f) s m := by
  obtain ⟨-, -, ⟨t, hi, -, rfl⟩ | ⟨t, hi, -, rfl⟩⟩ := exec_next h
  · have hRead : decode f = .ok (.mrcA32 t) ∨ decode f = .ok (.mrcT32 t) := by simpa [hd] using hi
    constructor
    case x => exact fun _ => .inl ⟨f, t, rfl, hRead⟩
    all_goals simp
  · have hWrite : decode f = .ok (.mcrA32 t) ∨ decode f = .ok (.mcrT32 t) := by simpa [hd] using hi
    constructor
    case hcr => exact fun _ => .inl ⟨f, t, rfl, hWrite, rfl⟩
    all_goals simp

/-- A counting write writes the two counts (R94, R58). -/
theorem eventWrites_countEoi {e : Event} (s : State)
    (he : (∃ w, e = .virtualEOIRWrite w) ∨ ∃ w, e = .virtualDIRWrite w) : EventWrites e s s.countEoi := by
  have low : ∀ n, n < 27 → s.countEoi.hcr.getLsbD n = s.hcr.getLsbD n := fun n hn => Hcr.increment_low _ _ hn
  constructor
  case hcr =>
    intro _
    obtain ⟨w, rfl⟩ | ⟨w, rfl⟩ := he
    · exact .inr (.inr (.inl ⟨w, rfl, low⟩))
    · exact .inr (.inr (.inr (.inl ⟨w, rfl, low⟩)))
  case sync => exact fun _ => .inr (.inr he)
  all_goals simp

/-- An event that completes writes no more than its own fields. -/
theorem runEvent_writes {e : Event} {s m : State} (h : runEvent e s = .next m) : EventWrites e s m := by
  obtain ⟨f, i, rfl, hd, hx⟩ | ⟨v, rfl, rfl⟩ | ⟨rfl, rfl⟩ | ⟨w, rfl, -, rfl⟩ | ⟨w, rfl, -, rfl⟩ | ⟨r, v, rfl, -, rfl⟩ |
    ⟨a, rfl, rfl⟩ | ⟨rfl, rfl⟩ | ⟨rfl, rfl⟩ | ⟨rfl, rfl⟩ | ⟨i, rfl, -, rfl⟩ | ⟨t, v, rfl, rfl⟩ := runEvent_next h
  · exact eventWrites_instr hd hx
  · constructor <;> simp
  · constructor <;> simp
  · obtain hw | hw := s.virtualEOIRWrite_cases w <;> rw [hw]
    · exact .refl _ s
    · exact eventWrites_countEoi s (.inl ⟨w, rfl⟩)
  · obtain hw | hw := s.virtualDIRWrite_cases w <;> rw [hw]
    · exact .refl _ s
    · exact eventWrites_countEoi s (.inr ⟨w, rfl⟩)
  · constructor <;> simp [State.iarRead]
  · exact .refl _ _
  · exact .refl _ _
  · constructor <;> simp
  · constructor <;> simp
  · constructor <;> simp
  · constructor <;> simp

/-- A step that completes writes what its event writes; with no event only the outputs change. -/
theorem step_writes {s s' : State} (h : step s = .next s') :
    s' = s.settle ∨ ∃ e es, s.events = e :: es ∧ EventWrites e s s' := by
  obtain ⟨m, rfl, ⟨-, rfl⟩ | ⟨e, es, he, hr⟩⟩ := step_next h
  · exact .inl rfl
  · have hw := runEvent_writes hr
    exact .inr ⟨e, es, he, ⟨hw.cfg, hw.inputs, hw.x, hw.returned, hw.sync, hw.hcr⟩⟩

/-- Settles O49: the list of the writers of ICH_HCR, with the event that is at the head of the list. -/
theorem closedListOfWriters : Obligations.ClosedListOfWriters := by
  unfold Obligations.ClosedListOfWriters
  intro s s' h hne
  obtain rfl | ⟨e, es, he, hw⟩ := step_writes h
  · exact absurd rfl hne
  obtain ⟨f, t, rfl, hd, hv⟩ | ⟨v, rfl, hv⟩ | ⟨w, rfl, hv⟩ | ⟨w, rfl, hv⟩ | ⟨rfl, hv⟩ := hw.hcr hne
  · exact .inl ⟨f, t, es, he, hd, hv⟩
  · exact .inr (.inl ⟨v, es, he, hv⟩)
  · exact .inr (.inr (.inl ⟨w, es, he, hv⟩))
  · exact .inr (.inr (.inr (.inl ⟨w, es, he, hv⟩)))
  · exact .inr (.inr (.inr (.inr ⟨es, he, hv⟩)))

/-- Settles O50: the writers of the rest of the state. -/
theorem otherStateWriters : Obligations.OtherStateWriters := by
  unfold Obligations.OtherStateWriters
  intro s s' h
  obtain rfl | ⟨e, es, he, hw⟩ := step_writes h
  · exact ⟨rfl, absurd rfl, absurd rfl, absurd rfl⟩
  refine ⟨hw.cfg, fun hne => ?inputs, fun hne => ?x, fun hne => ?returned⟩
  case inputs => exact ⟨s'.inputs, es, hw.inputs hne ▸ he, rfl⟩
  case x =>
    obtain ⟨f, t, rfl, hd⟩ | ⟨t, v, rfl, hx⟩ := hw.x hne
    · exact .inl ⟨f, t, es, he, hd⟩
    · exact .inr ⟨t, v, es, he, hx⟩
  case returned =>
    obtain rfl | ⟨r, v, rfl⟩ := hw.returned hne
    · exact .inl ⟨es, he⟩
    · exact .inr ⟨r, v, es, he⟩

/-- A step on a context synchronisation (R58). -/
theorem step_contextSync {s : State} {es : List Event} (he : s.events = .contextSync :: es) :
    step s = .next (State.settle { s with sync := s.hcr, events := es }) :=
  step_of_events he

/-- Settles O33: the synchronisation itself, and the writers of the synchronised value. -/
theorem contextSyncSynchronises : Obligations.ContextSyncSynchronises := by
  unfold Obligations.ContextSyncSynchronises
  constructor
  · exact fun s es he => ⟨_, step_contextSync he, rfl, rfl, rfl, rfl, rfl, rfl, rfl⟩
  · intro s s' h hne
    obtain rfl | ⟨e, es, he, hw⟩ := step_writes h
    · exact absurd rfl hne
    obtain rfl | rfl | ⟨w, rfl⟩ | ⟨w, rfl⟩ := hw.sync hne
    · exact .inl ⟨es, he⟩
    · exact .inr (.inl ⟨es, he⟩)
    · exact .inr (.inr (.inl ⟨w, es, he⟩))
    · exact .inr (.inr (.inr ⟨w, es, he⟩))

/-! ### The invariant -/

/-- The invariant looks at the parameters, the inputs and the two values only. -/
theorem State.Inv.of_eq {s m : State} (h : s.Inv) (hc : m.cfg = s.cfg) (hi : m.inputs = s.inputs)
    (hh : m.hcr = s.hcr) (hy : m.sync = s.sync) : m.Inv := by
  constructor
  · rw [hc]; exact h.config
  · rw [hc, hi]; exact h.inputs
  · rw [hc, hh]; exact h.hcr
  · rw [hc, hy]; exact h.sync

/-- A written value keeps the invariant (R82, R83). -/
theorem State.Inv.writeHcr {s : State} (h : s.Inv) (v : Word) : (s.writeHcr v).Inv :=
  ⟨h.config, h.inputs, Hcr.writeValue_reservedClear s.cfg v, h.sync⟩

/-- A count keeps the invariant where it can happen (R94, R101). -/
theorem State.Inv.countEoi {s : State} (h : s.Inv) (h2 : s.cfg.haveEL2 = true) : s.countEoi.Inv :=
  ⟨h.config, h.inputs, Hcr.increment_reservedClear s.cfg h2 _ s.hcr h.hcr,
    Hcr.increment_reservedClear s.cfg h2 _ s.sync h.sync⟩

/-- A synchronisation keeps the invariant (R58). -/
theorem State.Inv.syncHcr {s : State} (h : s.Inv) : s.syncHcr.Inv := ⟨h.config, h.inputs, h.hcr, h.hcr⟩

/-- A reset keeps the invariant (R140). -/
theorem State.Inv.resetHcr {s : State} (h : s.Inv) : s.resetHcr.Inv :=
  ⟨h.config, h.inputs, Hcr.resetValue_reservedClear s.cfg _, Hcr.resetValue_reservedClear s.cfg _⟩

/-- An instruction that completes keeps the invariant. -/
theorem exec_inv {i : Instr} {s m : State} (hs : s.Inv) (h : exec i s = .next m) : m.Inv := by
  obtain ⟨-, -, ⟨t, -, -, rfl⟩ | ⟨t, -, -, rfl⟩⟩ := exec_next h
  · exact hs.of_eq (by simp) (by simp) (by simp) (by simp)
  · exact hs.writeHcr _

/-- An event that completes keeps the invariant. -/
theorem runEvent_inv {e : Event} {s m : State} (hs : s.Inv) (h : runEvent e s = .next m) : m.Inv := by
  obtain ⟨f, i, -, -, hx⟩ | ⟨v, -, rfl⟩ | ⟨-, rfl⟩ | ⟨w, -, h2, rfl⟩ | ⟨w, -, h2, rfl⟩ | ⟨r, v, -, -, rfl⟩ |
    ⟨a, -, rfl⟩ | ⟨-, rfl⟩ | ⟨-, rfl⟩ | ⟨-, rfl⟩ | ⟨i, -, hi, rfl⟩ | ⟨t, v, -, rfl⟩ := runEvent_next h
  · exact exec_inv hs hx
  · exact hs.writeHcr v
  · exact hs.of_eq rfl rfl rfl rfl
  · obtain hw | hw := s.virtualEOIRWrite_cases w <;> rw [hw]
    · exact hs
    · exact hs.countEoi h2
  · obtain hw | hw := s.virtualDIRWrite_cases w <;> rw [hw]
    · exact hs
    · exact hs.countEoi h2
  · exact hs.of_eq rfl rfl rfl rfl
  · exact hs
  · exact hs
  · exact hs.syncHcr
  · exact hs.resetHcr
  · exact ⟨hs.config, hi, hs.hcr, hs.sync⟩
  · exact hs.of_eq rfl rfl rfl rfl

/-- Settles O47: every event keeps the invariant, and so do taking it off the list and settling. -/
theorem stepKeepsInvariant : Obligations.StepKeepsInvariant := by
  unfold Obligations.StepKeepsInvariant
  intro s s' hs h
  obtain ⟨m, rfl, ⟨-, rfl⟩ | ⟨e, es, -, hr⟩⟩ := step_next h
  · exact State.settle_inv hs
  · have hs' : State.Inv { s with events := es } := hs.of_eq rfl rfl rfl rfl
    exact State.settle_inv (runEvent_inv hs' hr)

/-- The state after a first reset meets the invariant where the parameters and the inputs are admitted (R140). -/
theorem State.resetOf_inv {c : Config} {i : Inputs} (free : Word) (hc : Hcr.configAdmitted c = true)
    (hi : i.admitted c = true) : (State.resetOf c i free).Inv :=
  ⟨hc, hi, Hcr.resetValue_reservedClear c free, Hcr.resetValue_reservedClear c free⟩

/-- Settles O48: the reference implementation's parameters and inputs are admitted ones. -/
theorem resetMeetsInvariant : Obligations.ResetMeetsInvariant := by
  unfold Obligations.ResetMeetsInvariant
  constructor
  · exact State.resetOf_inv 0 (by decide) (by decide)
  · exact fun c i free hc hi => State.resetOf_inv free hc hi

end Sys2Proof.Machine
end

