-- ==== Sys2Proof/Proofs/RegisterValue.lean ====
section
/-! The value of the register bit by bit (10_state.md sections 1 to 3, 20_memory.md section 3): which bits are RES0, what a
write stores in each, the parts of the value, and where a hardware read takes each bit from. -/

namespace Sys2Proof.Machine

/-! ### RES0 bits and what a write stores -/

/-- The bits that are RES0 in every implementation with EL2: 9 and 15 to 26 (R22, R28). -/
theorem reservedBits_bit {n : Nat} (hn : n < 32) :
    (0x07FF8200#32).getLsbD n = decide (n = 9 ∨ 15 ≤ n ∧ n ≤ 26) := by
  have all : ∀ k : Fin 32, (0x07FF8200#32).getLsbD k = decide (k.val = 9 ∨ 15 ≤ k.val ∧ k.val ≤ 26) := by decide
  exact all ⟨n, hn⟩

/-- The mask of a field that is there only with a feature: its one bit is RES0 where the feature is missing. -/
theorem optionalField_bit (supported : Bool) {k n : Nat} (hk : k < 32) :
    (if supported then 0 else BitVec.twoPow 32 k).getLsbD n = (decide (n = k) && !supported) := by
  cases supported <;> simp [hk, eq_comm]

/-- RES0_MASK bit by bit (R38). -/
theorem Hcr.res0Mask_bit (c : Config) {n : Nat} (hn : n < 32) :
    (Hcr.res0Mask c).getLsbD n =
      (!c.haveEL2 || decide (n = 9 ∨ 15 ≤ n ∧ n ≤ 26) || (decide (n = 14) && !c.tdirSupported) ||
        (decide (n = 13) && !c.seis) || (decide (n = 8) && !c.featGICv4p1)) := by
  unfold Hcr.res0Mask
  cases c.haveEL2
  · have all : ∀ k : Fin 32, (0xFFFFFFFF#32).getLsbD k = true := by decide
    simpa using all ⟨n, hn⟩
  · rw [if_pos rfl, BitVec.getLsbD_or, BitVec.getLsbD_or, BitVec.getLsbD_or, reservedBits_bit hn,
      show 0x00004000#32 = BitVec.twoPow 32 14 from rfl, show 0x00002000#32 = BitVec.twoPow 32 13 from rfl,
      show 0x00000100#32 = BitVec.twoPow 32 8 from rfl]
    simp only [optionalField_bit _ (show 14 < 32 by decide), optionalField_bit _ (show 13 < 32 by decide),
      optionalField_bit _ (show 8 < 32 by decide), Bool.not_true, Bool.false_or]

/-- Settles O18: the bits of RES0_MASK, and its value in the two extreme implementations. -/
theorem res0MaskBitByBit : Obligations.Res0MaskBitByBit := by
  unfold Obligations.Res0MaskBitByBit
  intro c
  refine ⟨fun n hn => ?bits, fun h2 hTdir hSeis hSgi => ?largest, fun h2 hTdir hSeis hSgi => ?smallest⟩
  case bits =>
    rw [Hcr.res0Mask_bit c hn]
    simp only [Bool.or_eq_true, Bool.and_eq_true, Bool.not_eq_true', decide_eq_true_eq, or_assoc]
  case largest => simp [Hcr.res0Mask, h2, hTdir, hSeis, hSgi]
  case smallest => simp [Hcr.res0Mask, h2, hTdir, hSeis, hSgi]

/-- Bit n of what a write stores: the written bit, where it is functional or read back (R39, R82). -/
theorem Hcr.writeValue_bit (c : Config) (v : Word) {n : Nat} (hn : n < 32) :
    (Hcr.writeValue c v).getLsbD n = (v.getLsbD n && (!(Hcr.res0Mask c).getLsbD n || c.res0Readback.getLsbD n)) := by
  simp [Hcr.writeValue, hn]

/-- A functional bit is stored as written (R82). -/
theorem Hcr.writeValue_functional {c : Config} (v : Word) {n : Nat} (hn : n < 32)
    (h : (Hcr.res0Mask c).getLsbD n = false) : (Hcr.writeValue c v).getLsbD n = v.getLsbD n := by
  rw [Hcr.writeValue_bit c v hn, h, Bool.not_false, Bool.true_or, Bool.and_true]

/-- With EL2 implemented the count is stored as written (R21, R82). -/
theorem Hcr.eoiCount_writeValue {c : Config} (h2 : c.haveEL2 = true) (v : Word) :
    Hcr.eoiCount (Hcr.writeValue c v) = Hcr.eoiCount v := by
  apply BitVec.eq_of_getLsbD_eq
  intro n hn
  have hBit : 27 + n < 32 := by omega
  rw [Hcr.eoiCount_bit _ hn, Hcr.eoiCount_bit _ hn,
    Hcr.writeValue_functional v hBit (Hcr.res0Mask_count c h2 (Nat.le_add_right 27 n) hBit)]

/-- Without EL2 a write stores the read-back bits only (R38, R84). -/
theorem Hcr.writeValue_noEL2 {c : Config} (h2 : c.haveEL2 = false) (v : Word) :
    Hcr.writeValue c v = v &&& c.res0Readback := by
  simp [Hcr.writeValue, Hcr.res0Mask, h2]

/-- A value with the reserved bits clear is stored as it is (R82, R83). -/
theorem Hcr.writeValue_of_reservedClear {c : Config} {v : Word} (h : Hcr.reservedClear c v = true) :
    Hcr.writeValue c v = v := by
  apply BitVec.eq_of_getLsbD_eq
  intro n hn
  have hClear := (Hcr.reservedClear_iff c v).1 h n hn
  rw [Hcr.writeValue_bit c v hn]
  cases hMask : (Hcr.res0Mask c).getLsbD n <;> cases hBack : c.res0Readback.getLsbD n <;> simp_all

/-! ### The parts of the value -/

/-- Settles O19: each of the 32 bits is in the part that has its place. -/
theorem seventeenParts : Obligations.SeventeenParts := by
  unfold Obligations.SeventeenParts
  intro v
  apply BitVec.eq_of_getLsbD_eq
  intro n hn
  unfold Hcr.eoiCount Hcr.tdir Hcr.tsei Hcr.tall1 Hcr.tall0 Hcr.tc Hcr.vSGIEOICount Hcr.vGrp1DIE Hcr.vGrp1EIE
    Hcr.vGrp0DIE Hcr.vGrp0EIE Hcr.npie Hcr.lrenpie Hcr.uie Hcr.en
  simp only [BitVec.getLsbD_append]
  interval_cases n <;> simp

/-! ### A hardware read -/

/-- The bits of EOIcount are 27 to 31 (R21). -/
theorem Hcr.countMask_bit {n : Nat} (hn : n < 32) : Hcr.countMask.getLsbD n = decide (27 ≤ n) := by
  have all : ∀ k : Fin 32, Hcr.countMask.getLsbD k = decide (27 ≤ k.val) := by decide
  exact all ⟨n, hn⟩

/-- Which of the two values a hardware read takes each bit from (R58). -/
theorem Hcr.hardwareView_getLsbD (a b m : Word) {n : Nat} (hn : n < 32) :
    (Hcr.hardwareView a b m).getLsbD n = if m.getLsbD n = true ∨ 27 ≤ n then a.getLsbD n else b.getLsbD n := by
  rw [Hcr.hardwareView_eq]
  simp only [BitVec.getLsbD_or, BitVec.getLsbD_and, BitVec.getLsbD_not, hn, decide_true, Bool.true_and,
    Hcr.countMask_bit hn]
  by_cases hTake : m.getLsbD n = true ∨ 27 ≤ n
  · simp [hTake, show (m.getLsbD n || decide (27 ≤ n)) = true by simpa using hTake]
  · simp [hTake, show (m.getLsbD n || decide (27 ≤ n)) = false by simpa using hTake]

/-- A hardware read sees the current count (R58). -/
theorem Hcr.eoiCount_hardwareView (a b m : Word) : Hcr.eoiCount (Hcr.hardwareView a b m) = Hcr.eoiCount a := by
  apply BitVec.eq_of_getLsbD_eq
  intro n hn
  rw [Hcr.eoiCount_bit _ hn, Hcr.eoiCount_bit _ hn, Hcr.hardwareView_getLsbD a b m (by omega),
    if_pos (.inr (Nat.le_add_right 27 n))]

/-- Settles O20: the choice bit by bit, the count, and the two extreme choices. -/
theorem hardwareReadFieldwise : Obligations.HardwareReadFieldwise := by
  unfold Obligations.HardwareReadFieldwise
  intro current synced choice
  refine ⟨fun n hn => ?chosen, Hcr.eoiCount_hardwareView current synced choice, ?immediate, ?lagging⟩
  case chosen => simp [Hcr.hardwareView_getLsbD current synced choice (Nat.lt_trans hn (by decide)), Nat.not_le.2 hn]
  case immediate =>
    rw [Hcr.hardwareView_eq, show 0xFFFFFFFF#32 ||| Hcr.countMask = BitVec.allOnes 32 by decide, BitVec.and_allOnes,
      BitVec.not_allOnes, BitVec.and_zero, BitVec.or_zero]
  case lagging =>
    rw [Hcr.hardwareView_eq, Hcr.countMask]
    simp [BitVec.or_comm]

end Sys2Proof.Machine
end

