-- ==== Sys2Proof/Proofs/InstructionEffects.lean ====
section
/-! What the access instructions leave (40_sysreg_access.md sections 1 to 3) and when they stop (60_exceptions.md sections 2
and 7): one lemma for an MRC that completed, one for an MCR, and the answers of the access check that are UNDEFINED. -/

namespace Sys2Proof.Machine

/-! ### Instructions that complete -/

/-- An MRC that completes has written the register with the stored value (R80, R83). -/
theorem exec_mrc_next {i : Instr} {t : RegNum} {s s' : State} (hi : i = .mrcA32 t ∨ i = .mrcT32 t)
    (h : exec i s = .next s') : t ≠ 15 ∧ s' = s.writeReg t s.hcr := by
  obtain ⟨-, -, ⟨u, hu, hne, hs⟩ | ⟨u, hu, -, -⟩⟩ := exec_next h
  · obtain rfl : u = t := by
      obtain rfl | rfl := hi <;> simpa [eq_comm] using hu
    exact ⟨hne, hs⟩
  · obtain rfl | rfl := hi <;> simp at hu

/-- An MCR that completes has stored the register's value (R81, R82). -/
theorem exec_mcr_next {i : Instr} {t : RegNum} {s s' : State} (hi : i = .mcrA32 t ∨ i = .mcrT32 t)
    (h : exec i s = .next s') : s' = s.writeHcr (s.readReg t) := by
  obtain ⟨-, -, ⟨u, hu, -, -⟩ | ⟨u, hu, -, hs⟩⟩ := exec_next h
  · obtain rfl | rfl := hi <;> simp at hu
  · obtain rfl : u = t := by
      obtain rfl | rfl := hi <;> simpa [eq_comm] using hu
    exact hs

/-- An MCR of either instruction set, with a register number that set admits, is the shared write (R81, R40). -/
theorem exec_mcr_eq_writeIchHcr {i : Instr} {t : RegNum} (s : State)
    (hi : i = .mcrA32 t ∧ t ≠ 15 ∨ i = .mcrT32 t ∧ t ≠ 15 ∧ t ≠ 13) : exec i s = writeIchHcr t s := by
  obtain ⟨rfl, ht⟩ | ⟨rfl, ht⟩ := hi
  · exact if_pos ((rtAdmittedA32_iff t).2 ht)
  · exact if_pos ((rtAdmittedT32_iff t).2 ht)

/-- Settles O12: both instructions are `writeIchHcr`, whose only effect is the stored value. -/
theorem mcrCompletes : Obligations.McrCompletes := by
  unfold Obligations.McrCompletes
  constructor
  · intro s i t hi hA hSre
    refine ⟨s.writeHcr (s.readReg t), ?_, rfl, rfl⟩
    rw [exec_mcr_eq_writeIchHcr s hi]
    exact checked_permitted ⟨hA, hSre⟩
  · intro s i t f hi
    rw [exec_mcr_eq_writeIchHcr s hi]
    exact checked_fault

/-- Settles O14: a written value bit by bit, with the bits of RES0_MASK. -/
theorem writtenFieldByField : Obligations.WrittenFieldByField := by
  unfold Obligations.WrittenFieldByField
  intro s s' i t hi h h2
  obtain rfl := exec_mcr_next hi h
  rw [State.writeHcr_hcr]
  have stored {n : Nat} (hn : n < 32) := Hcr.writeValue_bit s.cfg (s.readReg t) hn
  have mask {n : Nat} (hn : n < 32) := Hcr.res0Mask_bit s.cfg hn
  refine ⟨Hcr.eoiCount_writeValue h2 _, fun n hn => ?functional, ?tdir, ?tsei, ?vSGIEOICount, fun n hn => ?reserved⟩
  case functional =>
    have hRange : n < 32 := by
      simp only [List.mem_cons, List.not_mem_nil, or_false] at hn
      omega
    refine Hcr.writeValue_functional _ hRange ?_
    rw [mask hRange, h2]
    simp only [List.mem_cons, List.not_mem_nil, or_false] at hn
    obtain rfl | rfl | rfl | rfl | rfl | rfl | rfl | rfl | rfl | rfl | rfl := hn <;> rfl
  case tdir => rw [stored (by decide), mask (by decide)]; simp [h2]
  case tsei => rw [stored (by decide), mask (by decide)]; simp [h2]
  case vSGIEOICount => rw [stored (by decide), mask (by decide)]; simp [h2]
  case reserved =>
    have hRange : n < 32 := by omega
    rw [stored hRange, mask hRange]
    simp [h2, hn]

/-- Settles O15: the read hands out the value the write stored. -/
theorem readReturnsLastWrite : Obligations.ReadReturnsLastWrite := by
  unfold Obligations.ReadReturnsLastWrite
  intro s s₁ s₂ w r t u hw hr h₁ h₂
  obtain rfl := exec_mcr_next hw h₁
  obtain ⟨hu, rfl⟩ := exec_mrc_next hr h₂
  exact State.readReg_writeReg_same _ u _ hu

/-- Settles O51: the value read stands in the register untouched by the count, and writing it back restores it whole. -/
theorem writeBackLosesCount : Obligations.WriteBackLosesCount := by
  unfold Obligations.WriteBackLosesCount
  intro s s₁ s₂ r w t hr hw hs _ h₁ h₂
  obtain ⟨ht, rfl⟩ := exec_mrc_next hr h₁
  obtain rfl := exec_mcr_next hw h₂
  have hRead : (s.writeReg t s.hcr).countEoi.readReg t = s.hcr := State.readReg_writeReg_same s t s.hcr ht
  rw [State.writeHcr_hcr, hRead, State.countEoi_cfg, State.writeReg_cfg]
  exact Hcr.writeValue_of_reservedClear hs.hcr

/-! ### Instructions that stop -/

/-- A register number that is not admitted is refused before anything else (R40, R72). -/
theorem exec_of_not_wellFormed {i : Instr} (hi : i.wellFormed = false) (s : State) :
    exec i s = .refused .registerNotAdmitted := by
  cases i <;> exact if_neg (ne_true_of_eq_false hi)

/-- Settles O13: six terms that are not well-formed. -/
theorem registerNumbersRefused : Obligations.RegisterNumbersRefused := by
  unfold Obligations.RegisterNumbersRefused
  have refused (i : Instr) (hi : i.wellFormed = false) (s : State) := exec_of_not_wellFormed hi s
  exact fun s => ⟨refused _ rfl s, refused _ rfl s, refused _ rfl s, refused _ rfl s, refused _ rfl s, refused _ rfl s⟩

/-- When the check answers UNDEFINED (R106). -/
theorem accessCheck_eq_undefined_iff {c : Config} {i : Inputs} :
    accessCheck c i = some .undefined ↔
      c.haveAArch32 = false ∨ i.el = .el0 ∨
      (i.el = .el1 ∧ ¬ (i.el2Enabled = true ∧ i.el2UsesAArch32 = false ∧ i.hstrEl2T12 = true) ∧
        ¬ (i.el2Enabled = true ∧ i.el2UsesAArch32 = true ∧ i.hstrT12 = true)) ∨
      (i.el = .el2 ∧ i.hsreSre = false) ∨ (i.el = .el3 ∧ i.msreSre = false) := by
  cases hA : c.haveAArch32
  · simp [accessCheck_noAArch32 hA]
  · cases hE : i.el with
    | el0 => simp [accessCheck_el0 hE]
    | el1 =>
      rw [accessCheck_el1 hA hE]
      split_ifs with hA64 hHyp
      · simp [hA64]
      · simp [hHyp]
      · simp [hA64, hHyp]
    | el2 => simp [accessCheck_el2 hA hE]
    | el3 => simp [accessCheck_el3 hA hE]

/-- Settles O9: the cases in which the access check answers UNDEFINED. -/
theorem undefinedExactlyWhen : Obligations.UndefinedExactlyWhen := by
  unfold Obligations.UndefinedExactlyWhen
  intro i s hi
  rw [exec_fault hi]
  exact accessCheck_eq_undefined_iff

/-- No access is permitted below EL2 (R128). -/
theorem not_accessPermitted_of_below {s : State} (h : s.inputs.el = .el0 ∨ s.inputs.el = .el1) :
    ¬ AccessPermitted s := by
  rintro ⟨-, ⟨hE, -⟩ | ⟨hE, -⟩⟩ <;> simp [hE] at h

/-- Where the access is not permitted, what an instruction answers is a matter of the parameters and the inputs (R109). -/
theorem exec_congr_of_not_permitted {i : Instr} {s m : State} (h : ¬ AccessPermitted s) (hc : m.cfg = s.cfg)
    (hi : m.inputs = s.inputs) : exec i m = exec i s := by
  cases hWf : i.wellFormed
  · rw [exec_of_not_wellFormed hWf, exec_of_not_wellFormed hWf]
  · obtain ⟨f, hf⟩ := Option.ne_none_iff_exists'.1 (mt (accessCheck_none_iff s).1 h)
    rw [(exec_fault hWf).2 hf, (exec_fault hWf).2 (by rw [hc, hi, hf])]

/-- Settles O17: below EL2 the access check stops every instruction, and it reads neither register. -/
theorem noAccessBelowEL2 : Obligations.NoAccessBelowEL2 := by
  unfold Obligations.NoAccessBelowEL2
  intro s i hE
  have hNot := not_accessPermitted_of_below hE
  exact ⟨fun s' h => hNot (exec_next h).1, fun _ _ _ => exec_congr_of_not_permitted hNot rfl rfl⟩

/-! ### Without EL2 -/

/-- Without EL2 the admitted inputs are not at EL2 and do not enable it (R42). -/
theorem Inputs.admitted_noEL2 {c : Config} {i : Inputs} (h2 : c.haveEL2 = false) (h : i.admitted c = true) :
    i.el ≠ .el2 ∧ i.el2Enabled = false := by
  simp [Inputs.admitted, h2] at h
  exact h.1

/-- Without EL2 a value with the reserved bits clear is read-back bits only (R38, R84). -/
theorem Hcr.readback_of_noEL2 {c : Config} {v : Word} (h2 : c.haveEL2 = false) (h : Hcr.reservedClear c v = true) :
    v &&& ~~~c.res0Readback = 0 := by
  rw [← Hcr.writeValue_of_reservedClear h, Hcr.writeValue_noEL2 h2, BitVec.and_assoc, BitVec.and_not_self]
  exact BitVec.and_zero

/-- Settles O16: the invariant rules EL2 out, and every bit of the register is RES0. -/
theorem noEL2Accesses : Obligations.NoEL2Accesses := by
  unfold Obligations.NoEL2Accesses
  intro s i hs h2 hi
  obtain ⟨hNotEL2, hDisabled⟩ := Inputs.admitted_noEL2 h2 hs.inputs
  have undefined := (exec_fault (s := s) (f := .undefined) hi).2
  refine ⟨hNotEL2, fun hE => undefined ?el1, fun hE hSre => undefined ?el3, fun hE hSre hA => ?permitted⟩
  case el1 =>
    rw [accessCheck_eq_undefined_iff]
    exact .inr (.inr (.inl ⟨hE, by simp [hDisabled], by simp [hDisabled]⟩))
  case el3 =>
    rw [accessCheck_eq_undefined_iff]
    exact .inr (.inr (.inr (.inr ⟨hE, hSre⟩)))
  case permitted =>
    obtain ⟨s', h⟩ := exec_completes hi (s := s) ⟨hA, .inr ⟨hE, hSre⟩⟩
    refine ⟨s', h, fun t ht => ?read, fun t ht => ?write⟩
    case read =>
      obtain ⟨hne, rfl⟩ := exec_mrc_next ht h
      rw [State.readReg_writeReg_same s t s.hcr hne]
      exact Hcr.readback_of_noEL2 h2 hs.hcr
    case write =>
      obtain rfl := exec_mcr_next ht h
      exact Hcr.writeValue_noEL2 h2 _

end Sys2Proof.Machine
end

