-- ==== Sys2Proof/Proofs/EventEffects.lean ====
section
/-! A step on one given event: an instruction (20_memory.md section 4), an access through the AArch64 name, and the events of
the virtual CPU interface (41_virtual_interface_events.md), counting ones first. -/

namespace Sys2Proof.Machine

/-! ### Instructions -/

/-- An instruction that decodes is run (R59). -/
theorem runEvent_instr_of_ok {f : Fetched} {i : Instr} (hd : decode f = .ok i) (s : State) :
    runEvent (.instr f) s = exec i s := by
  simp only [runEvent, hd]

/-- An instruction that does not decode is refused by the decoder's name (R72). -/
theorem runEvent_instr_of_error {f : Fetched} {r : DecodeError} (hd : decode f = .error r) (s : State) :
    runEvent (.instr f) s = .refused (.encoding r) := by
  simp only [runEvent, hd]

/-- A number of the opcode table is read by the A32 decoder (log 25). -/
theorem decode_of_decodeTableWord {nbits w : Nat} {i : Instr} (h : decodeTableWord nbits w = some i) :
    decode (.a32 (BitVec.ofNat 32 (w % 2 ^ nbits))) = .ok i := by
  unfold decodeTableWord at h
  split at h
  · rename_i j hd
    obtain rfl := Option.some.inj h
    exact hd
  · cases h

/-- Settles O21: the event at the head is the instruction, in both loading forms. -/
theorem stepRunsDecodedInstruction : Obligations.StepRunsDecodedInstruction := by
  unfold Obligations.StepRunsDecodedInstruction
  constructor
  · intro s f i es he hd
    rw [step_of_events he, runEvent_instr_of_ok hd]
  · intro s w i h
    have he : (s.withFetchWord 32 w).events = .instr (.a32 (BitVec.ofNat 32 (w % 2 ^ 32))) :: s.events := rfl
    rw [step_of_events he, runEvent_instr_of_ok (decode_of_decodeTableWord h)]
    rfl

/-- Settles O22: the refusal passes through the settling. -/
theorem stepRefusesUndecoded : Obligations.StepRefusesUndecoded := by
  unfold Obligations.StepRefusesUndecoded
  intro s f r es he hd
  rw [step_of_events he, runEvent_instr_of_error hd, settled_refused]

/-- Settles O32: a write and a read through the AArch64 name, each one update of the state. -/
theorem a64NameSameStorage : Obligations.A64NameSameStorage := by
  unfold Obligations.A64NameSameStorage
  constructor
  · exact fun s v es he => ⟨_, step_of_events he, rfl, rfl, rfl, rfl, rfl, rfl, rfl⟩
  · exact fun s es he => ⟨_, step_of_events he, rfl, rfl, rfl, rfl, rfl, rfl, rfl⟩

/-! ### Counting writes -/

/-- The gate of virtual SGIs is open for another interrupt, and where no hardware read can see vSGIEOICount 1 (R93). -/
theorem sgiGate_eq_false {s : State} {isVirtualSGI : Bool}
    (h : isVirtualSGI = false ∨ s.EffIs Hcr.vSGIEOICount false) : sgiGate s.cfg s.eventEff isVirtualSGI = false := by
  obtain hOther | hField := h
  · simp [sgiGate, hOther]
  · have hSeen : Hcr.vSGIEOICount s.eventEff = false := State.seenEff_agree (by decide) hField _
    simp [sgiGate, hSeen]

/-- The gate is closed for a virtual SGI where no hardware read can see vSGIEOICount 0 (R93). -/
theorem sgiGate_eq_true {s : State} {isVirtualSGI : Bool} (hFeat : s.cfg.featGICv4p1 = true)
    (hSgi : isVirtualSGI = true) (hField : s.EffIs Hcr.vSGIEOICount true) :
    sgiGate s.cfg s.eventEff isVirtualSGI = true := by
  have hSeen : Hcr.vSGIEOICount s.eventEff = true := State.seenEff_agree (by decide) hField _
  simp [sgiGate, hFeat, hSgi, hSeen]

/-- An EOIR write that meets the four conditions, clears a bit and finds the gate open counts (R90). -/
theorem State.virtualEOIRWrite_counts {s : State} {w : EoirWrite} (hValid : w.idValid = true) (hId : w.id < 8192)
    (hMode : s.inputs.eoiMode = false) (hLr : w.lrFound = false) (hClears : w.clearsAPBit = true)
    (hGate : sgiGate s.cfg s.eventEff w.isVirtualSGI = false) : s.virtualEOIRWrite w = s.countEoi := by
  simp [State.virtualEOIRWrite, hValid, hId, hMode, hLr, hClears, hGate]

/-- A DIR write that meets the four conditions and finds the gate open counts (R91). -/
theorem State.virtualDIRWrite_counts {s : State} {w : DirWrite} (hValid : w.idValid = true) (hId : w.id < 8192)
    (hMode : s.inputs.eoiMode = true) (hLr : w.lrFound = false)
    (hGate : sgiGate s.cfg s.eventEff w.isVirtualSGI = false) : s.virtualDIRWrite w = s.countEoi := by
  simp [State.virtualDIRWrite, hValid, hId, hMode, hLr, hGate]

/-- An EOIR write in the other mode, or that finds the gate closed, leaves the state as it was (R90, R93). -/
theorem State.virtualEOIRWrite_of_wrongModeOrGated {s : State} {w : EoirWrite}
    (h : s.inputs.eoiMode = true ∨ sgiGate s.cfg s.eventEff w.isVirtualSGI = true) : s.virtualEOIRWrite w = s := by
  unfold State.virtualEOIRWrite
  obtain hMode | hGate := h
  · simp [hMode]
  · simp [hGate]

/-- A DIR write in the other mode, or that finds the gate closed, leaves the state as it was (R91, R93). -/
theorem State.virtualDIRWrite_of_wrongModeOrGated {s : State} {w : DirWrite}
    (h : s.inputs.eoiMode = false ∨ sgiGate s.cfg s.eventEff w.isVirtualSGI = true) : s.virtualDIRWrite w = s := by
  unfold State.virtualDIRWrite
  obtain hMode | hGate := h
  · simp [hMode]
  · simp [hGate]

/-- The count after an increment of a count below 31, as a number (R94). -/
theorem Hcr.increment_count_toNat (free : Count) {v : Word} (h : (Hcr.eoiCount v).toNat < 31) :
    (Hcr.eoiCount (Hcr.increment free v)).toNat = (Hcr.eoiCount v).toNat + 1 := by
  rw [Hcr.increment_count free v h]
  exact BitVec.toNat_add_of_lt (x := Hcr.eoiCount v) (y := 1) (show _ + 1 < 32 by omega)

/-- Both values of the register are one increment on, or neither is (R58, R94). -/
def State.CountedOrNot (s s' : State) : Prop :=
  s'.hcr = s.hcr ∧ s'.sync = s.sync ∨
    s'.hcr = Hcr.increment (Config.freeCount s.draws) s.hcr ∧ s'.sync = Hcr.increment (Config.freeCount s.draws) s.sync

/-- A count, and the settling after it, change nothing but EOIcount. -/
theorem State.sameButCount_countEoi (s : State) (es : List Event) :
    s.SameButCount (State.settle (State.countEoi { s with events := es })) :=
  ⟨rfl, rfl, fun _ hn => Hcr.increment_low _ s.hcr hn, fun _ hn => Hcr.increment_low _ s.sync hn, rfl, rfl⟩

/-- A step whose event counts completes, adds one to each count below 31 and changes nothing else. -/
theorem step_counts {s : State} {e : Event} {es : List Event} (he : s.events = e :: es)
    (hr : runEvent e { s with events := es } = .next (State.countEoi { s with events := es }))
    (hCount : (Hcr.eoiCount s.hcr).toNat < 31) :
    ∃ s', step s = .next s' ∧ s'.events = es ∧
      (Hcr.eoiCount s'.hcr).toNat = (Hcr.eoiCount s.hcr).toNat + 1 ∧
      ((Hcr.eoiCount s.sync).toNat < 31 → (Hcr.eoiCount s'.sync).toNat = (Hcr.eoiCount s.sync).toNat + 1) ∧
      s.SameButCount s' := by
  refine ⟨State.settle (State.countEoi { s with events := es }), ?completes, rfl, ?current, ?synced,
    s.sameButCount_countEoi es⟩
  case completes => rw [step_of_events he, hr, settled_next]
  case current => exact Hcr.increment_count_toNat _ hCount
  case synced => exact Hcr.increment_count_toNat _

/-- A step whose event counts or leaves the state as it was completes and changes nothing but EOIcount. -/
theorem step_countedOrNot {s m : State} {e : Event} {es : List Event} (he : s.events = e :: es)
    (hr : runEvent e { s with events := es } = .next m)
    (hm : m = { s with events := es } ∨ m = State.countEoi { s with events := es }) :
    ∃ s', step s = .next s' ∧ s'.events = es ∧ s.SameButCount s' ∧ s.CountedOrNot s' := by
  have completes : step s = .next m.settle := by rw [step_of_events he, hr, settled_next]
  obtain rfl | rfl := hm
  · exact ⟨_, completes, rfl, ⟨rfl, rfl, fun _ _ => rfl, fun _ _ => rfl, rfl, rfl⟩, .inl ⟨rfl, rfl⟩⟩
  · exact ⟨_, completes, rfl, s.sameButCount_countEoi es, .inr ⟨rfl, rfl⟩⟩

/-- Every EOIR write completes where EL2 is implemented, and counts or does not. -/
theorem step_virtualEOIRWrite {s : State} {w : EoirWrite} {es : List Event} (he : s.events = .virtualEOIRWrite w :: es)
    (h2 : s.cfg.haveEL2 = true) :
    ∃ s', step s = .next s' ∧ s'.events = es ∧ s.SameButCount s' ∧ s.CountedOrNot s' :=
  step_countedOrNot he (needsEL2_next_of_haveEL2 _ h2) (State.virtualEOIRWrite_cases _ w)

/-- Every DIR write completes where EL2 is implemented, and counts or does not. -/
theorem step_virtualDIRWrite {s : State} {w : DirWrite} {es : List Event} (he : s.events = .virtualDIRWrite w :: es)
    (h2 : s.cfg.haveEL2 = true) :
    ∃ s', step s = .next s' ∧ s'.events = es ∧ s.SameButCount s' ∧ s.CountedOrNot s' :=
  step_countedOrNot he (needsEL2_next_of_haveEL2 _ h2) (State.virtualDIRWrite_cases _ w)

/-- Settles O24: the EOIR write that qualifies is a counting event. -/
theorem eoirWriteCounts : Obligations.EoirWriteCounts := by
  unfold Obligations.EoirWriteCounts
  intro s w es he h2 hValid hId hMode hLr hClears hGate hCount
  have hCounts := State.virtualEOIRWrite_counts (s := { s with events := es }) hValid hId hMode hLr hClears
    (sgiGate_eq_false hGate)
  exact step_counts he (hCounts ▸ needsEL2_next_of_haveEL2 _ h2) hCount

/-- Settles O25: the DIR write that qualifies is a counting event. -/
theorem dirWriteCounts : Obligations.DirWriteCounts := by
  unfold Obligations.DirWriteCounts
  intro s w es he h2 hValid hId hMode hLr hGate hCount
  have hCounts := State.virtualDIRWrite_counts (s := { s with events := es }) hValid hId hMode hLr
    (sgiGate_eq_false hGate)
  exact step_counts he (hCounts ▸ needsEL2_next_of_haveEL2 _ h2) hCount

/-- Settles O26: an EOIR write counts or does not, and an increment below 31 adds one. -/
theorem eoirWriteMayCount : Obligations.EoirWriteMayCount := by
  unfold Obligations.EoirWriteMayCount
  intro s w es he h2 _ hCount
  obtain ⟨s', hNext, hEvents, hSame, hNot | ⟨hHcr, hSync⟩⟩ := step_virtualEOIRWrite he h2
  · exact ⟨s', hNext, hEvents, hSame, .inl hNot⟩
  · refine ⟨s', hNext, hEvents, hSame, .inr ?_⟩
    rw [hHcr, hSync]
    exact ⟨Hcr.increment_count_toNat _ hCount, Hcr.increment_count_toNat _⟩

/-- Settles O29: whatever the count, a write of either kind changes nothing but EOIcount. -/
theorem fullCountKeepsOtherBits : Obligations.FullCountKeepsOtherBits := by
  unfold Obligations.FullCountKeepsOtherBits
  constructor
  · intro s w es he h2 _
    obtain ⟨s', hNext, hEvents, hSame, -⟩ := step_virtualEOIRWrite he h2
    exact ⟨s', hNext, hEvents, hSame⟩
  · intro s w es he h2 _
    obtain ⟨s', hNext, hEvents, hSame, -⟩ := step_virtualDIRWrite he h2
    exact ⟨s', hNext, hEvents, hSame⟩

/-- Settles O28: the wrong mode and the closed gate make either write an event that leaves the state as it was. -/
theorem wrongModeOrGatedNotCounted : Obligations.WrongModeOrGatedNotCounted := by
  unfold Obligations.WrongModeOrGatedNotCounted
  constructor
  · intro s w es he h2 h
    have hUnchanged := State.virtualEOIRWrite_of_wrongModeOrGated (s := { s with events := es })
      (h.imp_right fun ⟨hFeat, hSgi, hField⟩ => sgiGate_eq_true hFeat hSgi hField)
    apply step_sameMachine_of_runEvent he
    simp only [runEvent, hUnchanged]
    exact needsEL2_next_of_haveEL2 _ h2
  · intro s w es he h2 h
    have hUnchanged := State.virtualDIRWrite_of_wrongModeOrGated (s := { s with events := es })
      (h.imp_right fun ⟨hFeat, hSgi, hField⟩ => sgiGate_eq_true hFeat hSgi hField)
    apply step_sameMachine_of_runEvent he
    simp only [runEvent, hUnchanged]
    exact needsEL2_next_of_haveEL2 _ h2

/-! ### The interface without EL2, and reads of an IAR register -/

/-- Where EL2 is not implemented an event of the virtual CPU interface is refused (R101). -/
theorem needsEL2_refused {s : State} (done : State) (h : s.cfg.haveEL2 = false) :
    needsEL2 s done = .refused .eventNeedsEL2 := if_neg (ne_true_of_eq_false h)

/-- Settles O30: the three events ask for EL2 before anything else. -/
theorem noInterfaceEventsWithoutEL2 : Obligations.NoInterfaceEventsWithoutEL2 := by
  unfold Obligations.NoInterfaceEventsWithoutEL2
  intro s es h2
  have refused (done : State) := congrArg settled (needsEL2_refused (s := { s with events := es }) done h2)
  exact ⟨fun _ he => (step_of_events he).trans (refused _), fun _ he => (step_of_events he).trans (refused _),
    fun _ _ he => (step_of_events he).trans (refused _)⟩

/-- What an IAR read returns: with En 0 the spurious identifier, with En 1 the environment's value (R98). -/
theorem State.iarRead_returned {s : State} {b : Bool} (h : s.EffIs Hcr.en b) (r : IARReg) (v : Nat) :
    (s.iarRead r v).returned = some (.iarRead (if b then v else s.cfg.spuriousId)) := by
  have hSeen : Hcr.en s.eventEff = b := State.seenEff_agree (by decide) h _
  simp [State.iarRead, hSeen]

/-- Settles O31: the read changes what was returned and nothing else. -/
theorem iarReadGatedByEn : Obligations.IarReadGatedByEn := by
  unfold Obligations.IarReadGatedByEn
  intro s r v es he h2
  refine ⟨State.settle (State.iarRead { s with events := es } r v), ?completes, rfl, ?off, ?on, rfl, rfl, rfl, rfl, rfl⟩
  case completes => exact (step_of_events he).trans (congrArg settled (needsEL2_next_of_haveEL2 _ h2))
  case off => exact fun h => State.iarRead_returned (s := { s with events := es }) h r v
  case on => exact fun h => State.iarRead_returned (s := { s with events := es }) h r v

end Sys2Proof.Machine
end

