-- ==== Sys2Proof/Proofs/RaisedOutcomes.lean ====
section
/-! Which events raise an outcome and which (60_exceptions.md sections 1 to 3). The four trap fields are treated alike: a
cause has the bit of its field (`TrapCause.bit`) and the accesses its field covers (`RegAccess.CoveredBy`), and those two
decide whether the cause applies. -/

namespace Sys2Proof.Machine

/-! ### The trap fields -/

/-- The bit of the field that a cause names (R23 to R27). -/
def TrapCause.bit : TrapCause → Nat
  | .tc => 10
  | .tall0 => 11
  | .tall1 => 12
  | .tdir => 14
  | .tsei => 13

/-- The field that a cause names (R23 to R27). -/
def TrapCause.field (k : TrapCause) (v : Word) : Bool := v.getLsbD k.bit

/-- The accesses that the field of a cause covers (R110 to R113); TSEI covers none (R114). -/
def RegAccess.CoveredBy (c : Config) (a : RegAccess) : TrapCause → Prop
  | .tc => a.reg.common = true
  | .tall0 => a.isGroup0Reg = true
  | .tall1 => a.isGroup1Reg = true
  | .tdir => a.isWrite = true ∧ (a.reg = .icvDIR ∨ a.reg = .iccDIR ∧ c.tdirTrapsIccDir = true)
  | .tsei => False

/-- A cause applies to an access from Non-secure EL1 that its field covers, where the field is set (R115). -/
theorem mem_trapCauses_iff_coveredBy {c : Config} {e : Word} {i : Inputs} {a : RegAccess} {k : TrapCause} :
    k ∈ trapCauses c e i a ↔
      (i.isNonSecure = true ∧ i.el = .el1) ∧ k.field e = true ∧ a.CoveredBy c k := by
  rw [mem_trapCauses]
  refine and_congr_right fun _ => ?_
  cases k with
  | tc => simp [trapsTC, TrapCause.field, TrapCause.bit, RegAccess.CoveredBy, Hcr.tc]
  | tall0 => simp [trapsTALL0, TrapCause.field, TrapCause.bit, RegAccess.CoveredBy, Hcr.tall0]
  | tall1 => simp [trapsTALL1, TrapCause.field, TrapCause.bit, RegAccess.CoveredBy, Hcr.tall1]
  | tdir => simp [trapsTDIR, TrapCause.field, TrapCause.bit, RegAccess.CoveredBy, Hcr.tdir, and_assoc]
  | tsei => simp [RegAccess.CoveredBy]

/-- The common registers are the eleven of the list (R27). -/
theorem mem_commonRegisters_iff (r : ICReg) :
    r ∈ [ICReg.iccSGI0R, .iccSGI1R, .iccASGI1R, .iccCTLR, .iccDIR, .iccPMR, .iccRPR, .icvCTLR, .icvDIR, .icvPMR,
      .icvRPR] ↔ r.common = true := by
  cases r <;> simp [ICReg.common]

/-- An access that is no write of ICV_DIR, and none of ICC_DIR that the implementation traps, is not covered by TDIR. -/
theorem not_coveredBy_tdir {c : Config} {a : RegAccess}
    (h : a.isWrite = false ∨ a.reg ≠ .icvDIR ∧ (a.reg ≠ .iccDIR ∨ c.tdirTrapsIccDir = false)) :
    ¬ a.CoveredBy c .tdir := by
  rintro ⟨hWrite, hReg⟩
  obtain hRead | ⟨hNotIcv, hNotIcc⟩ := h
  · simp [hWrite] at hRead
  · obtain hIcv | ⟨hIcc, hParam⟩ := hReg
    · exact hNotIcv hIcv
    · simp [hIcc, hParam] at hNotIcc

/-- What the event's hardware read sees of a trap field that is the same in both values (R58). -/
theorem TrapCause.field_eventEff {s : State} {k : TrapCause} {b : Bool} (h : s.EffIs k.field b) :
    k.field s.eventEff = b :=
  State.seenEff_agree (by cases k <;> decide) h _

/-- A field that the event's hardware read sees set is not clear in both values. -/
theorem TrapCause.not_effIs_false {s : State} {k : TrapCause} (h : k.field s.eventEff = true) :
    ¬ s.EffIs k.field false :=
  fun hClear => Bool.false_ne_true ((TrapCause.field_eventEff hClear).symm.trans h)

/-! ### What an access can raise -/

/-- An access raises a trap by a field that applies, or the outcome the event carries (R115). -/
theorem el1SysRegAccess_fault {s : State} {a : RegAccess} {f : Fault} (h : el1SysRegAccess s a = .fault f) :
    (∃ k, f = .trapToEL2 k ∧ k ∈ trapCauses s.cfg s.eventEff s.inputs a) ∨
      ∃ o, f = .otherTrap o ∧ a.otherTrap = some o := by
  unfold el1SysRegAccess at h
  split at h
  · rename_i k hk _
    cases h
    exact .inl ⟨k, rfl, pickCause_mem hk⟩
  · rename_i k o hk ho
    split at h <;> cases h
    · exact .inl ⟨k, rfl, pickCause_mem hk⟩
    · exact .inr ⟨o, rfl, ho⟩
  · rename_i o _ ho
    cases h
    exact .inr ⟨o, rfl, ho⟩
  · cases h

/-- With no field that applies, an access proceeds or has the other mechanism's outcome (R115). -/
theorem el1SysRegAccess_of_noCause {s : State} {a : RegAccess}
    (h : trapCauses s.cfg s.eventEff s.inputs a = []) :
    (a.otherTrap = none → el1SysRegAccess s a = .next s) ∧
    (∀ o, a.otherTrap = some o → el1SysRegAccess s a = .fault (.otherTrap o)) := by
  unfold el1SysRegAccess
  rw [h, pickCause_nil]
  exact ⟨fun ho => by rw [ho], fun o ho => by rw [ho]; rfl⟩

/-- With a field that applies and no other mechanism, an access traps (R115). -/
theorem el1SysRegAccess_of_cause {s : State} {a : RegAccess} {k : TrapCause}
    (h : k ∈ trapCauses s.cfg s.eventEff s.inputs a) (ho : a.otherTrap = none) :
    ∃ k', el1SysRegAccess s a = .fault (.trapToEL2 k') := by
  obtain ⟨k', hk'⟩ := pickCause_some (Config.freeCause s.draws) (List.ne_nil_of_mem h)
  refine ⟨k', ?_⟩
  unfold el1SysRegAccess
  rw [hk', ho]
  rfl

/-- With another mechanism an access ends in its outcome or in a field trap (R115). -/
theorem el1SysRegAccess_of_otherTrap {s : State} {a : RegAccess} {o : Nat} (ho : a.otherTrap = some o) :
    el1SysRegAccess s a = .fault (.otherTrap o) ∨ ∃ k, el1SysRegAccess s a = .fault (.trapToEL2 k) := by
  unfold el1SysRegAccess
  rw [ho]
  cases pickCause (trapCauses s.cfg s.eventEff s.inputs a) (Config.freeCause s.draws) with
  | none => exact .inl rfl
  | some k =>
    cases Config.freeFieldTrapWins s.draws
    · exact .inl rfl
    · exact .inr ⟨k, rfl⟩

/-! ### What a step can raise -/

/-- The outcomes of the access check (R106 to R108). -/
theorem accessCheck_some {c : Config} {i : Inputs} {f : Fault} (h : accessCheck c i = some f) :
    f = .undefined ∨ f = .a64SystemAccessTrap .el2 0x03 ∨ f = .hypTrap 0x03 := by
  cases hA : c.haveAArch32
  · rw [accessCheck_noAArch32 hA] at h
    exact .inl (Option.some.inj h).symm
  by_cases hUndef : f = .undefined
  · exact .inl hUndef
  · have hE := el1_of_accessCheck_trap hA h hUndef
    rw [accessCheck_el1 hA hE] at h
    split_ifs at h <;> cases h <;> simp

/-- An instruction raises what the access check decides (R109). -/
theorem accessCheck_of_exec_fault {i : Instr} {s : State} {f : Fault} (h : exec i s = .fault f) :
    accessCheck s.cfg s.inputs = some f := by
  cases hWf : i.wellFormed
  · rw [exec_of_not_wellFormed hWf] at h
    cases h
  · exact (exec_fault hWf).1 h

theorem needsEL2_ne_fault {s done : State} {f : Fault} : needsEL2 s done ≠ .fault f := by
  unfold needsEL2
  split <;> nofun

/-- Everything an event that raises an outcome can be. -/
theorem runEvent_fault {e : Event} {s : State} {f : Fault} (h : runEvent e s = .fault f) :
    (∃ g, e = .instr g ∧ accessCheck s.cfg s.inputs = some f) ∨
    (∃ a, e = .el1SysRegAccess a ∧ el1SysRegAccess s a = .fault f) ∨
    (e = .localSEI ∧ f = .trapToEL2 .tsei) := by
  cases e with
  | instr g =>
    cases hd : decode g with
    | ok i =>
      rw [runEvent_instr_of_ok hd] at h
      exact .inl ⟨g, rfl, accessCheck_of_exec_fault h⟩
    | error r =>
      rw [runEvent_instr_of_error hd] at h
      cases h
  | el1SysRegAccess a =>
    simp only [runEvent] at h
    split at h
    · exact .inr (.inl ⟨a, rfl, h⟩)
    · cases h
  | localSEI =>
    simp only [runEvent, localSEI] at h
    split at h <;> cases h
    exact .inr (.inr ⟨rfl, rfl⟩)
  | setInputs i =>
    simp only [runEvent] at h
    split at h <;> cases h
  | virtualEOIRWrite w => exact absurd h needsEL2_ne_fault
  | virtualDIRWrite w => exact absurd h needsEL2_ne_fault
  | iarRead r v => exact absurd h needsEL2_ne_fault
  | a64Write v => cases h
  | a64Read => cases h
  | contextSync => cases h
  | reset => cases h
  | setReg t v => cases h

/-- A step that raises an outcome is one event that raises it. -/
theorem step_fault {s : State} {f : Fault} (h : step s = .fault f) :
    ∃ e es, s.events = e :: es ∧ runEvent e { s with events := es } = .fault f := by
  unfold step advance at h
  split at h
  · cases h
  · rename_i e es he
    exact ⟨e, es, he, settled_eq_fault.1 h⟩

/-- Settles O23: the three events that raise, each with its own outcomes. -/
theorem onlyTheseEventsRaise : Obligations.OnlyTheseEventsRaise := by
  unfold Obligations.OnlyTheseEventsRaise
  intro s f h
  obtain ⟨e, es, he, hr⟩ := step_fault h
  obtain ⟨g, rfl, hg⟩ | ⟨a, rfl, ha⟩ | ⟨rfl, hf⟩ := runEvent_fault hr
  · exact .inl ⟨g, es, he, accessCheck_some hg⟩
  · refine .inr (.inl ⟨a, es, he, (el1SysRegAccess_fault ha).imp_left ?_⟩)
    rintro ⟨k, rfl, hk⟩
    exact ⟨k, rfl, (mem_trapCauses.1 hk).2.imp And.left (Or.imp And.left (Or.imp And.left And.left))⟩
  · exact .inr (.inr ⟨es, he, hf⟩)

/-! ### A step on an access -/

section
variable {s : State} {a : RegAccess} {es : List Event} (he : s.events = .el1SysRegAccess a :: es)
include he

/-- An access whose inputs are admitted is performed (R42, R115). -/
theorem step_access (ha : a.admitted = true) :
    step s = settled (el1SysRegAccess { s with events := es } a) := by
  rw [step_of_events he, runEvent, if_pos ha]

/-- A field trap that a step on an access raises is by a field that applies (R115). -/
theorem step_access_trap {k : TrapCause} (h : step s = .fault (.trapToEL2 k)) :
    k ∈ trapCauses s.cfg s.eventEff s.inputs a := by
  rw [step_of_events he, settled_eq_fault, runEvent] at h
  split at h
  · obtain ⟨k', hk', hMem⟩ | ⟨o, ho, -⟩ := el1SysRegAccess_fault h
    · cases hk'
      exact hMem
    · cases ho
  · cases h

/-- A field that both values have set traps the accesses it covers from Non-secure EL1 (R110 to R113). -/
theorem step_access_traps (ha : a.admitted = true) (hNs : s.inputs.isNonSecure = true) (hE : s.inputs.el = .el1)
    (ho : a.otherTrap = none) {k : TrapCause} (hField : s.EffIs k.field true) (hCovered : a.CoveredBy s.cfg k) :
    ∃ k', step s = .fault (.trapToEL2 k') := by
  have hMem : k ∈ trapCauses s.cfg s.eventEff s.inputs a :=
    mem_trapCauses_iff_coveredBy.2 ⟨⟨hNs, hE⟩, TrapCause.field_eventEff hField, hCovered⟩
  obtain ⟨k', hk'⟩ := el1SysRegAccess_of_cause (s := { s with events := es }) hMem ho
  exact ⟨k', by rw [step_access he ha, hk', settled_fault]⟩

/-- A field that both values have clear, or that does not cover the access, is not the cause of a trap (R110 to R113). -/
theorem step_access_not_trap {k : TrapCause} (h : s.EffIs k.field false ∨ ¬ a.CoveredBy s.cfg k) :
    step s ≠ .fault (.trapToEL2 k) := by
  intro hTrap
  obtain ⟨-, hSet, hCovered⟩ := mem_trapCauses_iff_coveredBy.1 (step_access_trap he hTrap)
  obtain hClear | hNot := h
  · exact TrapCause.not_effIs_false hSet hClear
  · exact hNot hCovered

end

/-- Where the implementation has no TDIR the field is clear in every effective value (R8, R38). -/
theorem effIs_tdir_false {s : State} (h : s.cfg.tdirSupported = false) : s.EffIs Hcr.tdir false := by
  have hMask : (Hcr.res0Mask s.cfg).getLsbD 14 = true := by rw [Hcr.res0Mask_bit s.cfg (by decide)]; simp [h]
  have hClear (v : Word) : Hcr.tdir (Hcr.eff s.cfg v) = false := by
    rw [Hcr.tdir, Hcr.eff_bit s.cfg v (by decide), hMask, Bool.not_true, Bool.and_false]
  exact ⟨hClear _, hClear _⟩

/-- Settles O34: TC and the common registers. -/
theorem commonRegistersTrap : Obligations.CommonRegistersTrap := by
  unfold Obligations.CommonRegistersTrap
  intro s a es he ha hNs hE ho
  rw [mem_commonRegisters_iff]
  exact ⟨fun hField hCommon => step_access_traps he ha hNs hE ho (k := .tc) hField hCommon,
    step_access_not_trap he (k := .tc)⟩

/-- Settles O35: TALL0 and TALL1, each with the registers of its group. -/
theorem groupRegistersTrap : Obligations.GroupRegistersTrap := by
  unfold Obligations.GroupRegistersTrap
  intro s a es he ha hNs hE ho
  refine ⟨fun hField hGroup => ?tall0, fun h => ?noTall0, fun hField hGroup => ?tall1, fun h => ?noTall1⟩
  case tall0 => exact step_access_traps he ha hNs hE ho (k := .tall0) hField hGroup
  case noTall0 => exact step_access_not_trap he (k := .tall0) (h.imp_right ne_true_of_eq_false)
  case tall1 => exact step_access_traps he ha hNs hE ho (k := .tall1) hField hGroup
  case noTall1 => exact step_access_not_trap he (k := .tall1) (h.imp_right ne_true_of_eq_false)

/-- Settles O36: TDIR, the writes it covers, and the implementations without it. -/
theorem dirWritesTrap : Obligations.DirWritesTrap := by
  unfold Obligations.DirWritesTrap
  intro s a es he ha hNs hE ho
  refine ⟨fun hField hWrite hReg => ?tdir, fun h => ?noTdir, fun hMissing => ?missing⟩
  case tdir => exact step_access_traps he ha hNs hE ho (k := .tdir) hField ⟨hWrite, hReg⟩
  case noTdir => exact step_access_not_trap he (k := .tdir) (h.imp_right not_coveredBy_tdir)
  case missing => exact step_access_not_trap he (k := .tdir) (.inl (effIs_tdir_false hMissing))

/-- Settles O37: no field applies, so the list of causes is empty. -/
theorem untrappedAccessProceeds : Obligations.UntrappedAccessProceeds := by
  unfold Obligations.UntrappedAccessProceeds
  intro s a es he ha h
  rw [mem_commonRegisters_iff] at h
  have hNone : trapCauses s.cfg s.eventEff s.inputs a = [] := by
    refine List.eq_nil_iff_forall_not_mem.2 fun k hk => ?_
    obtain ⟨⟨hNs, hE⟩, hSet, hCovered⟩ := mem_trapCauses_iff_coveredBy.1 hk
    have hNotClear := TrapCause.not_effIs_false hSet
    obtain hSecure | hLevel | ⟨hTc, hTall0, hTall1, hTdir⟩ := h
    · simp [hNs] at hSecure
    · exact hLevel hE
    · cases k with
      | tc => exact hTc.elim hNotClear (· hCovered)
      | tall0 => exact hTall0.elim hNotClear (ne_true_of_eq_false · hCovered)
      | tall1 => exact hTall1.elim hNotClear (ne_true_of_eq_false · hCovered)
      | tdir => exact hTdir.elim hNotClear (not_coveredBy_tdir · hCovered)
      | tsei => exact hCovered
  obtain ⟨hProceeds, hOther⟩ := el1SysRegAccess_of_noCause (s := { s with events := es }) hNone
  constructor
  · intro ho
    exact step_sameMachine_of_runEvent he ((if_pos ha).trans (hProceeds ho))
  · intro o ho
    rw [step_access he ha, hOther o ho, settled_fault]

/-- Settles O38: a cause that a step names is in the list of those that apply. -/
theorem trapCauseApplies : Obligations.TrapCauseApplies := by
  unfold Obligations.TrapCauseApplies
  intro s a es k he h
  obtain ⟨⟨hNs, hE⟩, hSet, hCovered⟩ := mem_trapCauses_iff_coveredBy.1 (step_access_trap he h)
  have hNotClear := TrapCause.not_effIs_false hSet
  rw [mem_commonRegisters_iff]
  refine ⟨hNs, hE, ?_⟩
  cases k with
  | tc => exact .inl ⟨rfl, hNotClear, hCovered⟩
  | tall0 => exact .inr (.inl ⟨rfl, hNotClear, hCovered⟩)
  | tall1 => exact .inr (.inr (.inl ⟨rfl, hNotClear, hCovered⟩))
  | tdir => exact .inr (.inr (.inr ⟨rfl, hNotClear, hCovered⟩))
  | tsei => exact hCovered.elim

/-- Settles O39: an access that carries another mechanism's outcome never proceeds. -/
theorem competingTraps : Obligations.CompetingTraps := by
  unfold Obligations.CompetingTraps
  intro s a es o he ha _ _ ho
  rw [step_access he ha]
  simp only [settled_eq_fault]
  exact el1SysRegAccess_of_otherTrap ho

/-- Settles O40: the step asks TSEI and nothing else. -/
theorem localSEITraps : Obligations.LocalSEITraps := by
  unfold Obligations.LocalSEITraps
  intro s es he
  constructor
  · intro h
    have hSet : Hcr.tsei s.eventEff = true := TrapCause.field_eventEff (k := .tsei) h
    exact (step_of_events he).trans (congrArg settled (if_pos hSet))
  · intro h
    have hClear : Hcr.tsei s.eventEff = false := TrapCause.field_eventEff (k := .tsei) h
    exact step_sameMachine_of_runEvent he (if_neg (ne_true_of_eq_false hClear))

end Sys2Proof.Machine
end

