-- ==== Sys2Proof/Proofs/ResetAndOutputs.lean ====
section
/-! What a reset leaves (70_reset_and_hazards.md section 1) and the outputs after a step (60_exceptions.md section 4): every
state a step answers is a settled one, so each claim about the outputs is one about `State.settle`. -/

namespace Sys2Proof.Machine

/-! ### Reset -/

/-- What a reset stores is read-back bits only (R141). -/
theorem Hcr.resetValue_readback (c : Config) (free : Word) : Hcr.resetValue c free &&& ~~~c.res0Readback = 0 := by
  rw [Hcr.resetValue, BitVec.and_assoc, BitVec.and_not_self]
  exact BitVec.and_zero

/-- With no read-back bit a reset stores 0 whatever is drawn (R141). -/
theorem Hcr.resetValue_of_noReadback {c : Config} (h : c.res0Readback = 0) (free : Word) :
    Hcr.resetValue c free = 0 := by
  rw [Hcr.resetValue, h]
  exact BitVec.and_zero

/-- With both values as a reset stores them, no hardware read sees En 1 (R97, R140). -/
theorem State.interfaceOff_of_reset {s : State} {free : Word} (hHcr : s.hcr = Hcr.resetValue s.cfg free)
    (hSync : s.sync = Hcr.resetValue s.cfg free) : s.InterfaceOff := by
  rw [State.InterfaceOff, State.EffIs, hHcr, hSync, Hcr.eff_resetValue]
  exact ⟨rfl, rfl⟩

/-- Settles O41: both values are what a reset stores, and with En 0 the outputs settle to silence. -/
theorem resetClearsFunctionalBits : Obligations.ResetClearsFunctionalBits := by
  unfold Obligations.ResetClearsFunctionalBits
  intro s es he
  have silent := State.settle_silent (s := State.resetHcr { s with events := es })
    (State.interfaceOff_of_reset rfl rfl)
  exact ⟨_, step_of_events he, rfl, Hcr.eff_resetValue s.cfg _, Hcr.resetValue_readback s.cfg _, rfl, silent,
    rfl, rfl, rfl, rfl⟩

/-- Settles O42: the same of the state after the first reset; the reference implementation has no read-back bit. -/
theorem stateAfterReset : Obligations.StateAfterReset := by
  unfold Obligations.StateAfterReset
  have reference (free : Word) : Hcr.resetValue Config.reference free = 0 := Hcr.resetValue_of_noReadback rfl free
  refine ⟨fun c i free => ?every, fun free => ?drawn, reference 0⟩
  case every =>
    exact ⟨Hcr.eff_resetValue c free, Hcr.resetValue_readback c free, rfl, ⟨rfl, rfl, rfl⟩,
      State.interfaceOff_of_reset rfl rfl⟩
  case drawn => rw [State.reset, State.resetOf, State.resetOf, reference, reference]

/-! ### Outputs -/

/-- The state after a step is a settled one (R44). -/
theorem eq_settle_of_step {s s' : State} (h : step s = .next s') : ∃ m : State, s' = m.settle := by
  obtain ⟨m, hm, -⟩ := step_next h
  exact ⟨m, hm⟩

/-- The level of the maintenance interrupt in the words of R116 to R123. -/
theorem maintLevel_iff (e : Word) (count : Count) (i : Inputs) :
    maintLevel e count i = true ↔
      Hcr.en e = true ∧
      (Hcr.uie e = true ∧ (i.lrs.filter (fun l => l.valid)).length ≤ 1 ∨
        Hcr.lrenpie e = true ∧ count ≠ 0 ∨
        Hcr.npie e = true ∧ (∀ l, l ∈ i.lrs → l.state ≠ 0b01) ∨
        Hcr.vGrp0EIE e = true ∧ i.veng0 = true ∨
        Hcr.vGrp0DIE e = true ∧ i.veng0 = false ∨
        Hcr.vGrp1EIE e = true ∧ i.veng1 = true ∨
        Hcr.vGrp1DIE e = true ∧ i.veng1 = false ∨
        i.otherMaintSources = true) := by
  simp only [maintLevel, condUIE, condLRENPIE, condNPIE, condVGrp0EIE, condVGrp0DIE, condVGrp1EIE, condVGrp1DIE,
    Inputs.numValid, Inputs.numPending, List.countP_eq_length_filter, Bool.and_eq_true, Bool.or_eq_true, or_assoc,
    decide_eq_true_eq, bne_iff_ne, beq_iff_eq, Bool.not_eq_true', List.length_eq_zero_iff, List.filter_eq_nil_iff, ne_eq]

/-- Settles O43: with both values equal the settled level is that of the register. -/
theorem maintenanceLevel : Obligations.MaintenanceLevel := by
  unfold Obligations.MaintenanceLevel
  intro s s' h hSync
  obtain ⟨m, rfl⟩ := eq_settle_of_step h
  rw [State.settle_maintIRQ, State.seenEff_synced (s := m) hSync]
  exact maintLevel_iff _ _ _

/-- Settles O44: the fields that the read of MaintIRQ sees, and with them the level. -/
theorem countAssertsMaintenance : Obligations.CountAssertsMaintenance := by
  unfold Obligations.CountAssertsMaintenance
  intro s s' h
  obtain ⟨m, rfl⟩ := eq_settle_of_step h
  have seen {n : Nat} {b : Bool} (hn : n < 32) (hField : m.EffIs (fun v => v.getLsbD n) b) :
      (m.seenEff Config.freeMaintView).getLsbD n = b := State.seenEff_agree hn hField _
  constructor
  · intro hEn hLrenpie hCount
    exact (maintLevel_iff _ _ _).2 ⟨seen (by decide) hEn, .inr (.inl ⟨seen (by decide) hLrenpie, hCount⟩)⟩
  · intro hUie hNpie hGrp0E hGrp0D hGrp1E hGrp1D hOther hCountOrField
    have unset {n : Nat} (hn : n < 32) (hField : m.EffIs (fun v => v.getLsbD n) false) :
        ¬ (m.seenEff Config.freeMaintView).getLsbD n = true := ne_true_of_eq_false (seen hn hField)
    refine eq_false_of_ne_true fun hLevel => ?_
    obtain ⟨-, ⟨hSet, -⟩ | ⟨hSet, hCount⟩ | ⟨hSet, -⟩ | ⟨hSet, -⟩ | ⟨hSet, -⟩ | ⟨hSet, -⟩ | ⟨hSet, -⟩ | hSource⟩ :=
      (maintLevel_iff _ _ _).1 hLevel
    · exact unset (by decide) hUie hSet
    · exact hCountOrField.elim hCount fun hLrenpie => unset (by decide) hLrenpie hSet
    · exact unset (by decide) hNpie hSet
    · exact unset (by decide) hGrp0E hSet
    · exact unset (by decide) hGrp0D hSet
    · exact unset (by decide) hGrp1E hSet
    · exact unset (by decide) hGrp1D hSet
    · exact ne_true_of_eq_false hOther hSource

/-- Settles O45: with no effective En in either value a settled state is silent. -/
theorem disabledInterfaceIsSilent : Obligations.DisabledInterfaceIsSilent := by
  unfold Obligations.DisabledInterfaceIsSilent
  intro s s' h hOff
  obtain ⟨m, rfl⟩ := eq_settle_of_step h
  exact State.settle_silent hOff

end Sys2Proof.Machine
end

