-- ==== Sys2Proof/Proofs/ReservedBits.lean ====
section
/-! A RES0 bit has no effect (R38, R39). Two states that differ in RES0 bits only (`State.SameButReserved`) stop alike on
every event, and where they complete they are alike again (`SameAfter`): each operation of the model is shown once to keep
`State.Alike`. -/

namespace Sys2Proof.Machine

/-! ### States that differ in RES0 bits -/

/-- All that the rules look at is the same: of the two values the functional bits (R38). -/
structure State.Alike (s s' : State) : Prop where
  cfg : s'.cfg = s.cfg
  hcr : Hcr.eff s.cfg s'.hcr = Hcr.eff s.cfg s.hcr
  sync : Hcr.eff s.cfg s'.sync = Hcr.eff s.cfg s.sync
  inputs : s'.inputs = s.inputs
  events : s'.events = s.events
  draws : s'.draws = s.draws

/-- The states differ in RES0 bits of the two values only, the outputs apart. -/
structure State.SameButReserved (s s' : State) : Prop extends s.Alike s' where
  x : s'.x = s.x
  returned : s'.returned = s.returned

section
variable {s s' : State} (h : s.Alike s')
include h

/-- Every hardware read sees the same (R38, R58). -/
theorem State.Alike.seenEff_eq (view : Nat → Word) : s'.seenEff view = s.seenEff view := by
  rw [State.seenEff, State.seenEff, h.cfg, h.draws]
  exact Hcr.eff_hardwareView_congr s.cfg _ h.hcr h.sync

theorem State.Alike.eventEff_eq : s'.eventEff = s.eventEff := h.seenEff_eq _

theorem State.Alike.settle : s.settle.SameInEffect s'.settle :=
  State.settle_sameInEffect h.cfg h.hcr h.sync h.inputs h.events h.draws

theorem State.Alike.writeReg (t : RegNum) (v v' : Word) : (s.writeReg t v).Alike (s'.writeReg t v') := by
  constructor <;> simp [h.cfg, h.hcr, h.sync, h.inputs, h.events, h.draws]

theorem State.Alike.writeHcr (v : Word) : (s.writeHcr v).Alike (s'.writeHcr v) := by
  refine ⟨h.cfg, ?_, h.sync, h.inputs, h.events, h.draws⟩
  rw [State.writeHcr_hcr, State.writeHcr_hcr, h.cfg]

theorem State.Alike.countEoi (h2 : s.cfg.haveEL2 = true) : s.countEoi.Alike s'.countEoi := by
  refine ⟨h.cfg, ?_, ?_, h.inputs, h.events, h.draws⟩
  · rw [State.countEoi_hcr, State.countEoi_hcr, h.draws]
    exact Hcr.eff_increment_congr s.cfg h2 _ h.hcr
  · rw [State.countEoi_sync, State.countEoi_sync, h.draws]
    exact Hcr.eff_increment_congr s.cfg h2 _ h.sync

theorem State.Alike.syncHcr : s.syncHcr.Alike s'.syncHcr :=
  ⟨h.cfg, h.hcr, h.hcr, h.inputs, h.events, h.draws⟩

theorem State.Alike.resetHcr : s.resetHcr.Alike s'.resetHcr := by
  refine ⟨h.cfg, ?_, ?_, h.inputs, h.events, h.draws⟩
  · rw [State.resetHcr_hcr, State.resetHcr_hcr, h.cfg, h.draws, State.resetHcr_cfg]
  · rw [State.resetHcr_sync, State.resetHcr_sync, h.cfg, h.draws, State.resetHcr_cfg]

end

/-- The same general registers read the same. -/
theorem State.readReg_congr {s s' : State} (hx : s'.x = s.x) (t : RegNum) : s'.readReg t = s.readReg t := by
  unfold State.readReg
  rw [hx]

/-! ### Outcomes that are the same -/

/-- Two outcomes stop for the same reason, or complete in states that `P` relates. -/
inductive SameOutcome (P : State → State → Prop) : Result → Result → Prop where
  | next {m m' : State} (h : P m m') : SameOutcome P (.next m) (.next m')
  | fault (f : Fault) : SameOutcome P (.fault f) (.fault f)
  | refused (r : Refusal) : SameOutcome P (.refused r) (.refused r)

/-- What `SameOutcome` says of two outcomes that are then settled. -/
theorem settled_of_sameOutcome {P : State → State → Prop} {r r' : Result} (h : SameOutcome P r r') :
    (∀ f, settled r = .fault f ↔ settled r' = .fault f) ∧ (∀ q, settled r = .refused q ↔ settled r' = .refused q) ∧
      ∀ m, settled r = .next m → ∃ n n', m = n.settle ∧ settled r' = .next n'.settle ∧ P n n' := by
  cases h with
  | next h =>
    refine ⟨by simp, by simp, fun m hm => ?_⟩
    cases hm
    exact ⟨_, _, rfl, rfl, h⟩
  | fault f => simp
  | refused q => simp

/-- What an event leaves of two states that differ in RES0 bits only: they are alike, and the same in the general registers
and in what was returned but for the stored value that an MRC or a read through the AArch64 name hands out. -/
structure SameAfter (e : Event) (s s' m m' : State) : Prop where
  alike : m.Alike m'
  x : m'.x = m.x ∨
    ∃ f t, e = .instr f ∧ (decode f = .ok (.mrcA32 t) ∨ decode f = .ok (.mrcT32 t)) ∧ m.readReg t = s.hcr ∧
      m'.readReg t = s'.hcr ∧ ∀ u, u ≠ t → m'.readReg u = m.readReg u
  returned : m'.returned = m.returned ∨
    e = .a64Read ∧ m.returned = some (.a64Read s.hcr) ∧ m'.returned = some (.a64Read s'.hcr)

section
variable {e : Event} {s s' : State} (hs : s.SameButReserved s')
include hs

/-- An event that leaves both states as they were. -/
theorem State.SameButReserved.sameAfter : SameAfter e s s' s s' := ⟨hs.toAlike, .inl hs.x, .inl hs.returned⟩

/-- An event that counts in both states. -/
theorem State.SameButReserved.sameAfter_countEoi (h2 : s.cfg.haveEL2 = true) :
    SameAfter e s s' s.countEoi s'.countEoi :=
  ⟨hs.toAlike.countEoi h2, .inl hs.x, .inl hs.returned⟩

/-- The access check reads no bit of the register (R109). -/
theorem checked_sameOutcome {P : State → State → Prop} {m m' : State} (hm : P m m') :
    SameOutcome P (checked s m) (checked s' m') := by
  unfold checked
  rw [hs.cfg, hs.inputs]
  cases accessCheck s.cfg s.inputs with
  | none => exact .next hm
  | some f => exact .fault f

theorem needsEL2_sameOutcome {P : State → State → Prop} {m m' : State} (hm : s.cfg.haveEL2 = true → P m m') :
    SameOutcome P (needsEL2 s m) (needsEL2 s' m') := by
  have hCfg : s'.cfg.haveEL2 = s.cfg.haveEL2 := congrArg Config.haveEL2 hs.cfg
  cases h2 : s.cfg.haveEL2
  · rw [needsEL2_refused m h2, needsEL2_refused m' (hCfg.trans h2)]
    exact .refused _
  · rw [needsEL2_next_of_haveEL2 m h2, needsEL2_next_of_haveEL2 m' (hCfg.trans h2)]
    exact .next (hm h2)

/-! ### Every event -/

/-- An MRC hands out the stored value and is otherwise the same (R80, R83). -/
theorem readIchHcr_sameOutcome {f : Fetched} {t : RegNum} (ht : t ≠ 15)
    (hd : decode f = .ok (.mrcA32 t) ∨ decode f = .ok (.mrcT32 t)) :
    SameOutcome (SameAfter (.instr f) s s') (readIchHcr t s) (readIchHcr t s') := by
  refine checked_sameOutcome hs ⟨hs.toAlike.writeReg t _ _, .inr ⟨f, t, rfl, hd, ?own, ?own', fun u hu => ?others⟩,
    .inl ?returned⟩
  case own => exact State.readReg_writeReg_same s t _ ht
  case own' => exact State.readReg_writeReg_same s' t _ ht
  case others =>
    rw [State.readReg_writeReg_other s' t u _ hu, State.readReg_writeReg_other s t u _ hu]
    exact State.readReg_congr hs.x u
  case returned => rw [State.writeReg_returned, State.writeReg_returned, hs.returned]

/-- An MCR stores the same value (R81, R82). -/
theorem writeIchHcr_sameOutcome (t : RegNum) :
    SameOutcome (SameAfter e s s') (writeIchHcr t s) (writeIchHcr t s') := by
  refine checked_sameOutcome hs ?_
  rw [State.readReg_congr hs.x t]
  exact ⟨hs.toAlike.writeHcr _, .inl hs.x, .inl hs.returned⟩

/-- An instruction of either set (R80, R81). -/
theorem exec_sameOutcome {f : Fetched} {i : Instr} (hd : decode f = .ok i) :
    SameOutcome (SameAfter (.instr f) s s') (exec i s) (exec i s') := by
  cases hWf : i.wellFormed
  · rw [exec_of_not_wellFormed hWf, exec_of_not_wellFormed hWf]
    exact .refused _
  cases i with
  | mrcA32 t =>
    have ht := (rtAdmittedA32_iff t).1 hWf
    rw [exec_mrc_eq_readIchHcr s (.inl ⟨rfl, ht⟩), exec_mrc_eq_readIchHcr s' (.inl ⟨rfl, ht⟩)]
    exact readIchHcr_sameOutcome hs ht (.inl hd)
  | mcrA32 t =>
    have ht := (rtAdmittedA32_iff t).1 hWf
    rw [exec_mcr_eq_writeIchHcr s (.inl ⟨rfl, ht⟩), exec_mcr_eq_writeIchHcr s' (.inl ⟨rfl, ht⟩)]
    exact writeIchHcr_sameOutcome hs t
  | mrcT32 t =>
    have ht := (rtAdmittedT32_iff t).1 hWf
    rw [exec_mrc_eq_readIchHcr s (.inr ⟨rfl, ht⟩), exec_mrc_eq_readIchHcr s' (.inr ⟨rfl, ht⟩)]
    exact readIchHcr_sameOutcome hs ht.1 (.inr hd)
  | mcrT32 t =>
    have ht := (rtAdmittedT32_iff t).1 hWf
    rw [exec_mcr_eq_writeIchHcr s (.inr ⟨rfl, ht⟩), exec_mcr_eq_writeIchHcr s' (.inr ⟨rfl, ht⟩)]
    exact writeIchHcr_sameOutcome hs t

/-- An EOIR write asks the event's read, the inputs and a free value, so it counts in both states or in neither. -/
theorem virtualEOIRWrite_sameAfter (w : EoirWrite) (h2 : s.cfg.haveEL2 = true) :
    SameAfter e s s' (s.virtualEOIRWrite w) (s'.virtualEOIRWrite w) := by
  unfold State.virtualEOIRWrite
  rw [hs.cfg, hs.inputs, hs.draws, hs.eventEff_eq]
  split_ifs
  · exact hs.sameAfter
  · exact hs.sameAfter_countEoi h2
  · exact hs.sameAfter_countEoi h2
  · exact hs.sameAfter
  · exact hs.sameAfter

/-- A DIR write counts in both states or in neither. -/
theorem virtualDIRWrite_sameAfter (w : DirWrite) (h2 : s.cfg.haveEL2 = true) :
    SameAfter e s s' (s.virtualDIRWrite w) (s'.virtualDIRWrite w) := by
  unfold State.virtualDIRWrite
  rw [hs.cfg, hs.inputs, hs.eventEff_eq]
  split_ifs
  · exact hs.sameAfter
  · exact hs.sameAfter_countEoi h2
  · exact hs.sameAfter

/-- An IAR read returns the same in both states. -/
theorem iarRead_sameAfter (r : IARReg) (v : Nat) : SameAfter e s s' (s.iarRead r v) (s'.iarRead r v) := by
  refine ⟨⟨hs.cfg, hs.hcr, hs.sync, hs.inputs, hs.events, hs.draws⟩, .inl hs.x, .inl ?_⟩
  simp only [State.iarRead, hs.cfg, hs.eventEff_eq]

/-- An access asks the event's read, the inputs and free values. -/
theorem el1SysRegAccess_sameOutcome (a : RegAccess) :
    SameOutcome (SameAfter e s s') (el1SysRegAccess s a) (el1SysRegAccess s' a) := by
  unfold el1SysRegAccess
  rw [hs.cfg, hs.inputs, hs.draws, hs.eventEff_eq]
  cases pickCause (trapCauses s.cfg s.eventEff s.inputs a) (Config.freeCause s.draws) with
  | none =>
    cases a.otherTrap with
    | none => exact .next hs.sameAfter
    | some o => exact .fault _
  | some k =>
    cases a.otherTrap with
    | none => exact .fault _
    | some o => cases Config.freeFieldTrapWins s.draws <;> exact .fault _

/-- Every event ends the same in two states that differ in RES0 bits only, but for what it hands out. -/
theorem runEvent_sameOutcome (e : Event) : SameOutcome (SameAfter e s s') (runEvent e s) (runEvent e s') := by
  cases e with
  | instr f =>
    cases hd : decode f with
    | ok i =>
      rw [runEvent_instr_of_ok hd, runEvent_instr_of_ok hd]
      exact exec_sameOutcome hs hd
    | error r =>
      rw [runEvent_instr_of_error hd, runEvent_instr_of_error hd]
      exact .refused _
  | a64Write v => exact .next ⟨hs.toAlike.writeHcr v, .inl hs.x, .inl hs.returned⟩
  | a64Read =>
    exact .next ⟨⟨hs.cfg, hs.hcr, hs.sync, hs.inputs, hs.events, hs.draws⟩, .inl hs.x, .inr ⟨rfl, rfl, rfl⟩⟩
  | virtualEOIRWrite w => exact needsEL2_sameOutcome hs (virtualEOIRWrite_sameAfter hs w)
  | virtualDIRWrite w => exact needsEL2_sameOutcome hs (virtualDIRWrite_sameAfter hs w)
  | iarRead r v => exact needsEL2_sameOutcome hs fun _ => iarRead_sameAfter hs r v
  | el1SysRegAccess a =>
    simp only [runEvent]
    split
    · exact el1SysRegAccess_sameOutcome hs a
    · exact .refused _
  | localSEI =>
    simp only [runEvent, localSEI, hs.eventEff_eq]
    split
    · exact .fault _
    · exact .next hs.sameAfter
  | contextSync => exact .next ⟨hs.toAlike.syncHcr, .inl hs.x, .inl hs.returned⟩
  | reset => exact .next ⟨hs.toAlike.resetHcr, .inl hs.x, .inl hs.returned⟩
  | setInputs i =>
    simp only [runEvent, hs.cfg]
    split
    · exact .next ⟨⟨rfl, hs.hcr, hs.sync, rfl, hs.events, hs.draws⟩, .inl hs.x, .inl hs.returned⟩
    · exact .refused _
  | setReg t v =>
    exact .next ⟨⟨hs.cfg, hs.hcr, hs.sync, hs.inputs, hs.events, hs.draws⟩, .inl (by rw [hs.x]), .inl hs.returned⟩

end

/-- With no event a step only settles (log 1). -/
theorem step_of_noEvents {s : State} (he : s.events = []) : step s = settled (.next s) := by
  unfold step advance
  rw [he]

/-- Settles O46: the two states take the same event off the list, and what it leaves settles alike. -/
theorem reservedBitsHaveNoEffect : Obligations.ReservedBitsHaveNoEffect := by
  unfold Obligations.ReservedBitsHaveNoEffect
  intro s h y hh hy
  have hs : s.SameButReserved { s with hcr := h, sync := y } := ⟨⟨rfl, hh, hy, rfl, rfl, rfl⟩, rfl, rfl⟩
  obtain he | ⟨e, es, he⟩ : s.events = [] ∨ ∃ e es, s.events = e :: es := by cases s.events <;> simp
  · rw [step_of_noEvents he, step_of_noEvents (s := { s with hcr := h, sync := y }) he]
    obtain ⟨hFault, hRefused, hNext⟩ := settled_of_sameOutcome (.next hs)
    refine ⟨hFault, hRefused, fun s₁ h₁ => ?_⟩
    obtain ⟨n, n', rfl, h₂, hn⟩ := hNext s₁ h₁
    exact ⟨_, h₂, hn.toAlike.settle, .inl hn.x, .inl hn.returned⟩
  · have hs' : State.SameButReserved { s with events := es } { s with hcr := h, sync := y, events := es } :=
      ⟨⟨rfl, hh, hy, rfl, rfl, rfl⟩, rfl, rfl⟩
    rw [step_of_events he, step_of_events (s := { s with hcr := h, sync := y }) he]
    obtain ⟨hFault, hRefused, hNext⟩ := settled_of_sameOutcome (runEvent_sameOutcome hs' e)
    refine ⟨hFault, hRefused, fun s₁ h₁ => ?_⟩
    obtain ⟨n, n', rfl, h₂, hn⟩ := hNext s₁ h₁
    refine ⟨_, h₂, hn.alike.settle, hn.x.imp_right ?mrc, hn.returned.imp_right ?a64Read⟩
    case mrc =>
      rintro ⟨f, t, rfl, hd, hOwn, hOwn', hOthers⟩
      exact ⟨f, t, es, he, hd, hOwn, hOwn', hOthers⟩
    case a64Read =>
      rintro ⟨rfl, hRead, hRead'⟩
      exact ⟨es, he, hRead, hRead'⟩

end Sys2Proof.Machine
end
